-- ==== Sys2Proof/Word.lean ====
section
/-! DEFINITION. The word of the Intcode core. A cell, `rb`, a parameter and a queue entry hold a signed integer of W
bits (R7); computed addresses and results are exact integers (R8, R10). Both are Lean's `Int`: no rule slices bits
(R11), and the W-bit range is a condition the operations check (Flags.lean) and the invariant keeps (Safety.lean). -/

namespace Sys2Proof

/-- The least cell value of width `w` (R7; two's complement, log 11). -/
abbrev cellMin (w : Nat) : Int := -((2 ^ (w - 1) : Nat) : Int)

/-- The greatest cell value of width `w` (R7; two's complement, log 11). -/
abbrev cellMax (w : Nat) : Int := ((2 ^ (w - 1) : Nat) : Int) - 1

end Sys2Proof
end

