-- ==== Sys2Proof/Config.lean ====
section
/-! DEFINITION. The implementation parameters of R6 and the values this hardware gives them. -/

namespace Sys2Proof

/-- A size limit of R6: a positive integer, or ∞. -/
inductive Limit where
  | finite (n : Nat)
  | unbounded
  deriving DecidableEq, Repr

/-- `a` is an index under the limit: for MEM_CAPACITY, the address `a` is legal (R8, R60). -/
def Limit.admits : Limit → Nat → Bool
  | .finite n, a => decide (a < n)
  | .unbounded, _ => true

/-- A count of `n` does not exceed the limit: a program's length in LOAD (R181), a queue's length (R29, R30). -/
def Limit.holds : Limit → Nat → Bool
  | .finite m, n => decide (n ≤ m)
  | .unbounded, _ => true

/-- A finite limit is a positive integer (R6). -/
def Limit.positive : Limit → Bool
  | .finite n => decide (0 < n)
  | .unbounded => true

/-- The four parameters of R6; "No other parameter exists". -/
structure Config where
  cellWidth   : Nat
  memCapacity : Limit
  inDepth     : Limit
  outDepth    : Limit
  deriving DecidableEq, Repr

/-- The values R6 gives this hardware (decisions D1, D4, D13). -/
def Config.hardware : Config :=
  { cellWidth := 64, memCapacity := .unbounded, inDepth := .unbounded, outDepth := .unbounded }

/-- The legal parameter values of R6: CELL_WIDTH ≥ 64, every finite limit positive. -/
def Config.legal (c : Config) : Bool :=
  decide (64 ≤ c.cellWidth) && c.memCapacity.positive && c.inDepth.positive && c.outDepth.positive

end Sys2Proof
end

