-- ==== Sys2Proof/Syntax.lean ====
section
/-! DEFINITION. The instructions: one constructor per row of spec/opcode_table.json (R2, R80). An instruction is a
decoded opcode cell; its parameter cells stay in memory and are read when a parameter is resolved (R64, R79, log 15). -/

namespace Sys2Proof

/-- A parameter's mode, the content of its mode digit (R71, R74). A digit 3..9 decodes without complaint and is
refused only when the parameter is resolved (R74, R105), so the digit is kept. -/
inductive Mode where
  | position
  | immediate
  | relative
  | undefined (digit : Nat)
  deriving DecidableEq, Repr

/-- The ten operations (R2), each with the modes of its parameters in order (R73, R80). -/
inductive Instr where
  | add (m1 m2 m3 : Mode)
  | mul (m1 m2 m3 : Mode)
  | inp (m1 : Mode)
  | out (m1 : Mode)
  | jt (m1 m2 : Mode)
  | jf (m1 m2 : Mode)
  | lt (m1 m2 m3 : Mode)
  | eq (m1 m2 m3 : Mode)
  | arb (m1 : Mode)
  | halt
  deriving DecidableEq, Repr

/-- A parameter is read for its value or written at its address (R78). -/
inductive Role where
  | read
  | write
  deriving DecidableEq, Repr

end Sys2Proof
end

