-- ==== Sys2Proof/WellFormed.lean ====
section
/-! DEFINITION. Well-formed instructions (what an opcode cell can say) and legal ones (what executes without
InvalidMode, R78, R81). -/

namespace Sys2Proof

/-- The modes of an instruction's parameters, parameter 1 first (R73, R80). -/
def Instr.modes : Instr → List Mode
  | .add m1 m2 m3 => [m1, m2, m3]
  | .mul m1 m2 m3 => [m1, m2, m3]
  | .inp m1 => [m1]
  | .out m1 => [m1]
  | .jt m1 m2 => [m1, m2]
  | .jf m1 m2 => [m1, m2]
  | .lt m1 m2 m3 => [m1, m2, m3]
  | .eq m1 m2 m3 => [m1, m2, m3]
  | .arb m1 => [m1]
  | .halt => []

/-- The roles of an instruction's parameters, parameter 1 first: the table of R78. -/
def Instr.roles : Instr → List Role
  | .add _ _ _ => [.read, .read, .write]
  | .mul _ _ _ => [.read, .read, .write]
  | .inp _ => [.write]
  | .out _ => [.read]
  | .jt _ _ => [.read, .read]
  | .jf _ _ => [.read, .read]
  | .lt _ _ _ => [.read, .read, .write]
  | .eq _ _ _ => [.read, .read, .write]
  | .arb _ => [.read]
  | .halt => []

/-- A mode is one decimal digit: an undefined mode carries a digit 3..9 (R71, R74). -/
def Mode.wellFormed : Mode → Bool
  | .position => true
  | .immediate => true
  | .relative => true
  | .undefined d => decide (3 ≤ d) && decide (d ≤ 9)

/-- Every mode of the instruction is one an opcode cell can hold (R71). -/
def Instr.wellFormed (i : Instr) : Bool := i.modes.all Mode.wellFormed

/-- The modes a parameter of a role may have: Position and Relative always, Immediate only on a read (R74, R78). -/
def Mode.legalFor : Mode → Role → Bool
  | .position, _ => true
  | .relative, _ => true
  | .immediate, .read => true
  | .immediate, .write => false
  | .undefined _, _ => false

/-- No parameter of the instruction is illegal in the sense of R81. -/
def Instr.legal (i : Instr) : Bool :=
  (i.modes.zip i.roles).all fun p => p.1.legalFor p.2

end Sys2Proof
end

