-- ==== Sys2Proof/Decode.lean ====
section
/-! DEFINITION. The decoder of R72 to R75, total on every cell value, and after it the canonical encoder of R82. -/

namespace Sys2Proof

/-- `digit(v, j)` of R10: the j-th decimal digit, the units digit being j = 0. -/
def digit (v j : Nat) : Nat := v / 10 ^ j % 10

/-- The mode a digit stands for (R74). -/
def Mode.ofDigit : Nat → Mode
  | 0 => .position
  | 1 => .immediate
  | 2 => .relative
  | d => .undefined d

/-- The digit of a mode (R74): what InvalidMode records (R212). -/
def Mode.toDigit : Mode → Nat
  | .position => 0
  | .immediate => 1
  | .relative => 2
  | .undefined d => d

/-- `mode(k)` of R73 for the opcode cell `v`. -/
def modeAt (v k : Nat) : Mode := Mode.ofDigit (digit v (k + 1))

/-- Why an opcode cell is no instruction; either reason raises InvalidOpcode (R72, R81). -/
inductive DecodeError where
  /-- The cell is negative (decision D3). -/
  | negativeCell
  /-- `v mod 100` is not in the opcode map. -/
  | unknownOperation (op : Nat)
  deriving DecidableEq, Repr

/-- Decode of a non-negative opcode cell (R72). The digits of parameters the instruction lacks are never looked at
(R75). -/
def decodeNat (v : Nat) : Except DecodeError Instr :=
  match v % 100 with
  | 1 => .ok (.add (modeAt v 1) (modeAt v 2) (modeAt v 3))
  | 2 => .ok (.mul (modeAt v 1) (modeAt v 2) (modeAt v 3))
  | 3 => .ok (.inp (modeAt v 1))
  | 4 => .ok (.out (modeAt v 1))
  | 5 => .ok (.jt (modeAt v 1) (modeAt v 2))
  | 6 => .ok (.jf (modeAt v 1) (modeAt v 2))
  | 7 => .ok (.lt (modeAt v 1) (modeAt v 2) (modeAt v 3))
  | 8 => .ok (.eq (modeAt v 1) (modeAt v 2) (modeAt v 3))
  | 9 => .ok (.arb (modeAt v 1))
  | 99 => .ok .halt
  | op => .error (.unknownOperation op)

/-- `Decode(v)` of R72. -/
def decode (v : Int) : Except DecodeError Instr :=
  if v < 0 then .error .negativeCell else decodeNat v.toNat

/-- The number n of an instruction's parameters (R72). -/
def Instr.paramCount (i : Instr) : Nat := i.modes.length

/-- An instruction's length in cells (R70, R76). -/
def Instr.length (i : Instr) : Nat := i.paramCount + 1

/-- The opcode map of R80. -/
def Instr.opcode : Instr → Nat
  | .add _ _ _ => 1
  | .mul _ _ _ => 2
  | .inp _ => 3
  | .out _ => 4
  | .jt _ _ => 5
  | .jf _ _ => 6
  | .lt _ _ _ => 7
  | .eq _ _ _ => 8
  | .arb _ => 9
  | .halt => 99

/-- Mode digits as a decimal number, parameter 1's digit the units digit. -/
def modesNumber : List Mode → Nat
  | [] => 0
  | m :: ms => m.toDigit + 10 * modesNumber ms

/-- The canonical opcode cell of R82: OP + 100·M1 + 1000·M2 + 10000·M3, no other digit. -/
def encode (i : Instr) : Int := (i.opcode + 100 * modesNumber i.modes : Nat)

/-- The cells of an instruction: its opcode cell, then its parameter cells in order (R70, R84). -/
def encodeCells (i : Instr) (params : List Int) : List Int := encode i :: params

/-- Reading an instruction off the front of a sequence of cells: the instruction, its parameter cells and the cells
after them. A sequence that ends early goes on with zeros, as memory does (R53, R70). -/
def decodeCells : List Int → Except DecodeError (Instr × List Int × List Int)
  | [] => (decode 0).map fun i => (i, List.replicate i.paramCount 0, [])
  | v :: rest =>
    (decode v).map fun i =>
      (i, (rest ++ List.replicate i.paramCount 0).take i.paramCount, rest.drop i.paramCount)

/-- The signed value of a 64-bit word: this hardware's cell (R7, log 8). -/
def cellOfWord (b : Nat) : Int :=
  if b % 2 ^ 64 < 2 ^ 63 then (b % 2 ^ 64 : Nat) else (b % 2 ^ 64 : Nat) - (2 ^ 64 : Nat)

/-- Cell `j` of an instruction whose bits are `w`, `nbits` of them counted: bits 64j+63 .. 64j, every bit at or above
`nbits` being 0 (log 8). -/
def tableCell (nbits w j : Nat) : Int := cellOfWord (w % 2 ^ nbits / 2 ^ (64 * j))

/-- The instruction the decoder reads from an instruction whose bits are `w` (log 8). -/
def decodeTableWord (nbits w : Nat) : Option Instr :=
  match decode (tableCell nbits w 0) with
  | .ok i => some i
  | .error _ => none

end Sys2Proof
end

