-- ==== Sys2Proof/Machine/Flags.lean ====
section
/-! DEFINITION. The core has no flags (R21). This file holds what a flag computation would: the range test behind
Overflow (R7, R132), and the truth values of the comparisons (R162) and jumps (R150, R151). -/

namespace Sys2Proof.Machine

/-- `InCell(x)` for cell width `w` (R7, R10; two's complement range, log 11). -/
abbrev InCell (w : Nat) (x : Int) : Prop := cellMin w ≤ x ∧ x ≤ cellMax w

/-- A comparison's result: exactly 1 or 0 (R162). -/
def truth (b : Bool) : Int := if b then 1 else 0

/-- LT's result, a signed comparison (R160). -/
def lessThan (x y : Int) : Int := truth (decide (x < y))

/-- EQ's result (R161). -/
def equalTo (x y : Int) : Int := truth (decide (x = y))

/-- Any non-zero cell value is true (R162). -/
def isTrue (c : Int) : Bool := decide (c ≠ 0)

end Sys2Proof.Machine
end

