-- ==== Sys2Proof/Machine/State.lean ====
section
/-! DEFINITION. The state of one core (R20), the reasons a step could stop, and the state after reset (R240). -/

namespace Sys2Proof.Machine

/-- The status register (R26). -/
inductive Status where
  | ready
  | running
  | awaitingInput
  | halted
  deriving DecidableEq, Repr

/-- The fault causes of R210; `none` is code 0, no fault. -/
inductive FaultCause where
  | none
  | invalidOpcode
  | invalidMode
  | negativeAddress
  | overflow
  | capacityExceeded
  | outputFull
  deriving DecidableEq, Repr

/-- Reasons for the HOST'S fault outcome. There are none: a fault of the hardware is a next state with the latch
written (R218), and a step on a faulted core is a next state with nothing changed (R221). Raised by nobody; safe
(log 4). -/
inductive Fault where
  deriving DecidableEq, Repr

/-- Reasons for a refusal. -/
inductive Refusal where
  /-- Only a refused arm of `exec` could raise it, and no arm does; safe (log 4). -/
  | notModelled (mnemonic : String)
  deriving DecidableEq, Repr

/-- Memory (R24): pairs of an address and the value of the cell there, addresses strictly rising, no value 0 (what an
unlisted address reads as, R53). The unit is the cell, which has no bytes (R55, log 1). -/
abbrev Memory := List (Nat × Int)

/-- The state tuple of R20, and the parameters the core was built with (R6, log 2). -/
structure State where
  /-- `M` (R24). -/
  mem        : Memory
  /-- `mem_len` (R25). -/
  memLen     : Nat
  /-- `pc` (R22). -/
  pc         : Nat
  /-- `rb` (R23). -/
  rb         : Int
  /-- `status` (R26). -/
  status     : Status
  /-- `fault_cause` (R27). -/
  faultCause : FaultCause
  /-- `fault_param` (R28). -/
  faultParam : Nat
  /-- `fault_value` (R28). -/
  faultValue : Int
  /-- `inq`, front first (R29). -/
  inq        : List Int
  /-- `outq`, oldest first (R30). -/
  outq       : List Int
  /-- The parameters of R6: the model's own field, written by nothing (log 2). -/
  config     : Config
  deriving DecidableEq, Repr

/-- A core with no program, every other state at its default: what LOAD of the empty program leaves (R181, R240). -/
def State.empty (c : Config) : State :=
  { mem := [], memLen := 0, pc := 0, rb := 0, status := .ready
    faultCause := .none, faultParam := 0, faultValue := 0, inq := [], outq := [], config := c }

/-- The machine right after reset: LOAD of the empty program (R240, R242) on this hardware (R6). A program comes from
outside by LOAD (log 6). -/
def State.reset : State := State.empty Config.hardware

end Sys2Proof.Machine
end

