-- ==== Sys2Proof/Machine/Ops.lean ====
section
/-! DEFINITION. The named operations on memory and registers, fault entry, the ends of a step, and the fetch. There is
no return from a fault (R222): the one thing that clears the latch is LOAD (HostInterface.lean). -/

namespace Sys2Proof.Machine

/-! ## Memory -/

/-- `M[a]`; an address not listed reads 0 (R24, R53). -/
def Memory.read : Memory → Nat → Int
  | [], _ => 0
  | (b, w) :: m, a => if b = a then w else Memory.read m a

/-- `M[a] <- v` (R12), keeping the canonical form. -/
def Memory.write : Memory → Nat → Int → Memory
  | [], a, v => if v = 0 then [] else [(a, v)]
  | (b, w) :: m, a, v =>
    if a < b then
      if v = 0 then (b, w) :: m else (a, v) :: (b, w) :: m
    else if b = a then
      if v = 0 then m else (a, v) :: m
    else (b, w) :: Memory.write m a v

/-- The canonical form: addresses strictly rising, no listed value 0. -/
abbrev Memory.wf (m : Memory) : Prop :=
  m.Pairwise (fun x y => x.1 < y.1) ∧ ∀ c ∈ m, c.2 ≠ 0

/-- `P[0]` at address `base`, `P[1]` at `base + 1`, ...: memory as LOAD leaves it (R24, R181). -/
def Memory.ofProgram : Nat → List Int → Memory
  | _, [] => []
  | base, v :: p =>
    if v = 0 then Memory.ofProgram (base + 1) p else (base, v) :: Memory.ofProgram (base + 1) p

/-! ## Register and queue updates -/

/-- `mem_len <- max(mem_len, a + 1)` (R25). -/
def State.grow (s : State) (a : Nat) : State := { s with memLen := max s.memLen (a + 1) }

/-- The write of a legal cell, with its growth of `mem_len` (R52). -/
def State.storeCell (s : State) (a : Nat) (v : Int) : State :=
  { s with mem := s.mem.write a v, memLen := max s.memLen (a + 1) }

/-- `rb <- v` (R12). -/
def State.setRb (s : State) (v : Int) : State := { s with rb := v }

/-- `inq <- q`. -/
def State.setInq (s : State) (q : List Int) : State := { s with inq := q }

/-- `outq <- q`. -/
def State.setOutq (s : State) (q : List Int) : State := { s with outq := q }

/-- The end of a completed instruction other than HALT: the pc write and status Running (R108, R109). -/
def State.goOn (s : State) (target : Nat) : State := { s with pc := target, status := .running }

/-- `await`: status AwaitingInput, nothing else (R15, R140). -/
def State.pause (s : State) : State := { s with status := .awaitingInput }

/-- HALT's end: status Halted, nothing else (R171). -/
def State.stop (s : State) : State := { s with status := .halted }

/-- FAULT ENTRY, `raise F(k, x)` of R218: the latch is written and status becomes Running; everything else stays. -/
def State.raise (s : State) (cause : FaultCause) (k : Nat) (x : Int) : State :=
  { s with faultCause := cause, faultParam := k, faultValue := x, status := .running }

/-! ## Parts of a step -/

/-- What one step answers. -/
abbrev StepResult := Host.Outcome State Fault Refusal

/-- What a part of a step answers: a value and the state so far, or the fault it raises and the state so far (only
`mem_len` may differ from the state before the step, R111). -/
inductive Partial (α : Type) where
  | value (x : α) (s : State)
  | fault (cause : FaultCause) (k : Nat) (x : Int) (s : State)
  deriving DecidableEq, Repr

/-- Go on with a part's value, or end the step by fault entry; after a `raise` nothing more runs (R15). -/
def Partial.andThen {α : Type} (r : Partial α) (f : α → State → StepResult) : StepResult :=
  match r with
  | .value x s => f x s
  | .fault cause k x s => .next (s.raise cause k x)

/-- Go on inside a step; a fault passes through. -/
def Partial.bind {α β : Type} (r : Partial α) (f : α → State → Partial β) : Partial β :=
  match r with
  | .value x s => f x s
  | .fault cause k x s => .fault cause k x s

/-- `MemRead(a, 1)` of R51, `k` being `k_cur`. -/
def memRead (k : Nat) (a : Int) (s : State) : Partial Int :=
  if a < 0 then .fault .negativeAddress k a s
  else if s.config.memCapacity.admits a.toNat = false then .fault .capacityExceeded k a s
  else .value (s.mem.read a.toNat) (s.grow a.toNat)

/-- `MemWrite(a, 1, v)` of R52, `k` being `k_cur`. -/
def memWrite (k : Nat) (a : Int) (v : Int) (s : State) : Partial Unit :=
  if a < 0 then .fault .negativeAddress k a s
  else if s.config.memCapacity.admits a.toNat = false then .fault .capacityExceeded k a s
  else .value () (s.storeCell a.toNat v)

/-- The end of an instruction that completes and does not jump: pc + len (R110). -/
def complete (len : Nat) (s : State) : StepResult := .next (s.goOn (s.pc + len))

/-- Fetch and decode (R106, R107, R72): the opcode cell at `pc`, read from the memory as it is now (R64, R77). -/
def fetch (s : State) : Partial Instr :=
  (memRead 0 (s.pc : Int) s).bind fun v s1 =>
    match decode v with
    | .ok i => .value i s1
    | .error _ => .fault .invalidOpcode 0 v s1

/-! ## The loaded words of `withFetchWord` -/

/-- The four cells of an instruction whose bits are `w` (Decode.lean, log 8), stored from address `a` on. -/
def State.storeTableWord (s : State) (a nbits w : Nat) : State :=
  (((s.storeCell a (tableCell nbits w 0)).storeCell (a + 1) (tableCell nbits w 1)).storeCell
    (a + 2) (tableCell nbits w 2)).storeCell (a + 3) (tableCell nbits w 3)

/-- A core that a step will run: no latched fault, not Halted (R106). -/
def State.awake (s : State) : State :=
  { s with faultCause := .none, faultParam := 0, faultValue := 0
           status := if s.status = .halted then .running else s.status }

end Sys2Proof.Machine
end

