-- ==== Sys2Proof/Machine/Operands.lean ====
section
/-! DEFINITION. The addressing-mode resolver (R100 to R105). Every operand form of the machine is here. -/

namespace Sys2Proof.Machine

/-- The address a parameter cell `p` stands for: p in Position mode, rb + p, exact, in Relative mode (R102, R104).
The other modes have none, and nothing below asks for one. -/
def effectiveAddress (m : Mode) (p rb : Int) : Int :=
  match m with
  | .position => p
  | .relative => rb + p
  | .immediate => p
  | .undefined _ => p

/-- `MemRead(pc + k, 1)`: the parameter cell of parameter `k`, used as it stands (R79). -/
def paramCell (k : Nat) (s : State) : Partial Int := memRead k ((s.pc + k : Nat) : Int) s

/-- The checks of R101 on a destination address. -/
def checkDestination (k : Nat) (a : Int) (s : State) : Partial Int :=
  if a < 0 then .fault .negativeAddress k a s
  else if s.config.memCapacity.admits a.toNat = false then .fault .capacityExceeded k a s
  else .value a s

/-- `ResolveRead(k)` of R100: the mode, then the parameter cell, then the operand. -/
def resolveRead (k : Nat) (m : Mode) (s : State) : Partial Int :=
  match m with
  | .undefined d => .fault .invalidMode k d s
  | .immediate => paramCell k s
  | .position => (paramCell k s).bind fun p s1 => memRead k (effectiveAddress .position p s1.rb) s1
  | .relative => (paramCell k s).bind fun p s1 => memRead k (effectiveAddress .relative p s1.rb) s1

/-- `ResolveWrite(k)` of R101: the destination address, checked but not accessed. -/
def resolveWrite (k : Nat) (m : Mode) (s : State) : Partial Int :=
  match m with
  | .undefined d => .fault .invalidMode k d s
  | .immediate => .fault .invalidMode k 1 s
  | .position => (paramCell k s).bind fun p s1 => checkDestination k (effectiveAddress .position p s1.rb) s1
  | .relative => (paramCell k s).bind fun p s1 => checkDestination k (effectiveAddress .relative p s1.rb) s1

/-- The three parameters of format F4, in ascending order (R108): two values and a destination. -/
def resolveTriple (m1 m2 m3 : Mode) (s : State)
    (body : Int → Int → Int → State → StepResult) : StepResult :=
  (resolveRead 1 m1 s).andThen fun x s1 =>
    (resolveRead 2 m2 s1).andThen fun y s2 =>
      (resolveWrite 3 m3 s2).andThen fun d s3 => body x y d s3

/-- Commit of a result at a resolved destination (R108): one MemWrite, then pc + len. -/
def storeAndGoOn (k : Nat) (d : Int) (v : Int) (len : Nat) (s : State) : StepResult :=
  (memWrite k d v s).andThen fun _ t => complete len t

end Sys2Proof.Machine
end

