-- ==== Sys2Proof/Machine/Arithmetic.lean ====
section
/-! DEFINITION. ADD and MUL (41_arithmetic.md). -/

namespace Sys2Proof.Machine

/-- The end of ADD and MUL: the exact result is stored if it is a cell value, else Overflow (R132). -/
def storeResult (r : Int) (d : Int) (s : State) : StepResult :=
  if InCell s.config.cellWidth r then storeAndGoOn 3 d r 4 s
  else .next (s.raise .overflow 0 0)

/-- ADD (R130). -/
def execAdd (m1 m2 m3 : Mode) (s : State) : StepResult :=
  resolveTriple m1 m2 m3 s fun x y d t => storeResult (x + y) d t

/-- MUL (R131). -/
def execMul (m1 m2 m3 : Mode) (s : State) : StepResult :=
  resolveTriple m1 m2 m3 s fun x y d t => storeResult (x * y) d t

end Sys2Proof.Machine
end

