-- ==== Sys2Proof/Machine/BaseAndHalt.lean ====
section
/-! DEFINITION. ARB and HALT (45_rb_and_halt.md). -/

namespace Sys2Proof.Machine

/-- ARB (R170): the operand is read with the old rb; a sum that is no cell value raises Overflow. -/
def execArb (m1 : Mode) (s : State) : StepResult :=
  (resolveRead 1 m1 s).andThen fun x t =>
    if InCell t.config.cellWidth (t.rb + x) then complete 2 (t.setRb (t.rb + x))
    else .next (t.raise .overflow 0 0)

/-- HALT (R171). -/
def execHalt (s : State) : StepResult := .next s.stop

end Sys2Proof.Machine
end

