-- ==== Sys2Proof/Machine/Comparison.lean ====
section
/-! DEFINITION. LT and EQ (44_comparison.md). -/

namespace Sys2Proof.Machine

/-- LT (R160). -/
def execLt (m1 m2 m3 : Mode) (s : State) : StepResult :=
  resolveTriple m1 m2 m3 s fun x y d t => storeAndGoOn 3 d (lessThan x y) 4 t

/-- EQ (R161). -/
def execEq (m1 m2 m3 : Mode) (s : State) : StepResult :=
  resolveTriple m1 m2 m3 s fun x y d t => storeAndGoOn 3 d (equalTo x y) 4 t

end Sys2Proof.Machine
end

