-- ==== Sys2Proof/Machine/InputOutput.lean ====
section
/-! DEFINITION. IN and OUT (42_io.md). -/

namespace Sys2Proof.Machine

/-- IN (R140): the destination is resolved before the queue is looked at (decision D7); an empty queue pauses. -/
def execIn (m1 : Mode) (s : State) : StepResult :=
  (resolveWrite 1 m1 s).andThen fun d t =>
    match t.inq with
    | [] => .next t.pause
    | x :: rest => storeAndGoOn 1 d x 2 (t.setInq rest)

/-- OUT (R141). A log that may hold no further entry is full (decision D13). -/
def execOut (m1 : Mode) (s : State) : StepResult :=
  (resolveRead 1 m1 s).andThen fun x t =>
    if t.config.outDepth.admits t.outq.length then complete 2 (t.setOutq (t.outq ++ [x]))
    else .next (t.raise .outputFull 1 x)

end Sys2Proof.Machine
end

