-- ==== Sys2Proof/Machine/Jumps.lean ====
section
/-! DEFINITION. JT and JF (43_jumps.md). -/

namespace Sys2Proof.Machine

/-- A taken jump (R150, R151, R152): the target is parameter 2's value, and a negative one faults at the jump. -/
def takeJump (m2 : Mode) (s : State) : StepResult :=
  (resolveRead 2 m2 s).andThen fun t s1 =>
    if t < 0 then .next (s1.raise .negativeAddress 2 t) else .next (s1.goOn t.toNat)

/-- JT (R150). The target of a jump not taken is not resolved (R105). -/
def execJt (m1 m2 : Mode) (s : State) : StepResult :=
  (resolveRead 1 m1 s).andThen fun c s1 => if isTrue c then takeJump m2 s1 else complete 3 s1

/-- JF (R151). -/
def execJf (m1 m2 : Mode) (s : State) : StepResult :=
  (resolveRead 1 m1 s).andThen fun c s1 => if isTrue c then complete 3 s1 else takeJump m2 s1

end Sys2Proof.Machine
end

