-- ==== Sys2Proof/Machine/Step.lean ====
section
/-! DEFINITION. One step (R106), and the state whose next step runs a given instruction. -/

namespace Sys2Proof.Machine

/-- `Step()` of R106: a faulted core and a Halted core do nothing (R221, R172); otherwise fetch, decode, execute. -/
def step (s : State) : Host.Outcome State Fault Refusal :=
  if s.faultCause = .none then
    if s.status = .halted then .next s else (fetch s).andThen exec
  else .next s

/-- `s` with the instruction whose bits are `w` in the cells from `pc` on, and neither halted nor faulted: it stands
for the host's LOAD or POKE of a program (log 6, log 8). -/
def State.withFetchWord (s : State) (nbits w : Nat) : State :=
  s.awake.storeTableWord s.pc nbits w

end Sys2Proof.Machine
end

