-- ==== Sys2Proof/Machine/Assembler.lean ====
section
/-! DEFINITION. The spec's own assembly language (R83 to R85, decisions D17, D18): its text, its statements, the five
pseudo-instructions, and the cells a source assembles to. It never reaches the machine; its output is a program for
LOAD. What R83 and R84 leave open of the text is log 14. -/

namespace Sys2Proof.Machine

/-! ## Statements -/

/-- A label's name. -/
abbrev Label := List Char

/-- The n of R83: a decimal integer, possibly negative, or a label, which stands for the address it marks. -/
inductive AsmExpr where
  | int (n : Int)
  | label (l : Label)
  deriving DecidableEq, Repr

/-- The three operand forms of R83. -/
inductive AsmOperand where
  /-- `[n]` -/
  | position (n : AsmExpr)
  /-- `#n` -/
  | immediate (n : AsmExpr)
  /-- `[rb+n]` -/
  | relativePlus (n : AsmExpr)
  /-- `[rb-n]` -/
  | relativeMinus (n : AsmExpr)
  deriving DecidableEq, Repr

/-- A statement of R84: an instruction of R80, DATA, or a pseudo-instruction of R85. -/
inductive AsmStmt where
  | add (a b dst : AsmOperand)
  | mul (a b dst : AsmOperand)
  | inp (dst : AsmOperand)
  | out (a : AsmOperand)
  | jt (cond tgt : AsmOperand)
  | jf (cond tgt : AsmOperand)
  | lt (a b dst : AsmOperand)
  | eq (a b dst : AsmOperand)
  | arb (a : AsmOperand)
  | halt
  | data (vs : List Int)
  | jmp (t : AsmOperand)
  | mov (s d : AsmOperand)
  | clr (d : AsmOperand)
  | neg (s d : AsmOperand)
  | nop
  deriving DecidableEq, Repr

/-- A line: an optional label, then an optional statement (R84; a line may be empty, log 14). -/
structure AsmLine where
  label : Option Label
  stmt  : Option AsmStmt
  deriving DecidableEq, Repr

/-- The mode of an operand form (R83). -/
def AsmOperand.mode : AsmOperand → Mode
  | .position _ => .position
  | .immediate _ => .immediate
  | .relativePlus _ => .relative
  | .relativeMinus _ => .relative

/-- `#n` for a literal n. -/
def AsmOperand.lit (n : Int) : AsmOperand := .immediate (.int n)

/-- The one instruction a statement stands for and its operands: R80, and the expansions of R85. DATA is none. -/
def AsmStmt.instr : AsmStmt → Option (Instr × List AsmOperand)
  | .add a b d => some (.add a.mode b.mode d.mode, [a, b, d])
  | .mul a b d => some (.mul a.mode b.mode d.mode, [a, b, d])
  | .inp d => some (.inp d.mode, [d])
  | .out a => some (.out a.mode, [a])
  | .jt c t => some (.jt c.mode t.mode, [c, t])
  | .jf c t => some (.jf c.mode t.mode, [c, t])
  | .lt a b d => some (.lt a.mode b.mode d.mode, [a, b, d])
  | .eq a b d => some (.eq a.mode b.mode d.mode, [a, b, d])
  | .arb a => some (.arb a.mode, [a])
  | .halt => some (.halt, [])
  | .data _ => none
  | .jmp t => some (.jt .immediate t.mode, [.lit 1, t])
  | .mov s d => some (.add s.mode .immediate d.mode, [s, .lit 0, d])
  | .clr d => some (.add .immediate .immediate d.mode, [.lit 0, .lit 0, d])
  | .neg s d => some (.mul s.mode .immediate d.mode, [s, .lit (-1), d])
  | .nop => some (.jt .immediate .immediate, [.lit 0, .lit 0])

/-- How many cells a statement takes (R84). -/
def AsmStmt.size (t : AsmStmt) : Nat :=
  match t with
  | .data vs => vs.length
  | t => match t.instr with
    | some (i, _) => i.length
    | none => 0

/-! ## Assembling -/

/-- The labels of a source and the addresses they mark, statements standing at consecutive addresses from `a` (R84). -/
def symbols : Nat → List AsmLine → List (Label × Nat)
  | _, [] => []
  | a, l :: ls =>
    let rest := symbols (a + match l.stmt with | some t => t.size | none => 0) ls
    match l.label with
    | some x => (x, a) :: rest
    | none => rest

/-- The address a label marks. -/
def lookup (env : List (Label × Nat)) (l : Label) : Option Nat :=
  match env with
  | [] => none
  | (x, a) :: rest => if x = l then some a else lookup rest l

/-- The value of an n (R83); an unknown label has none. -/
def AsmExpr.value (env : List (Label × Nat)) : AsmExpr → Option Int
  | .int n => some n
  | .label l => (lookup env l).map fun a => (a : Int)

/-- The parameter cell of an operand (R83). -/
def AsmOperand.cell (env : List (Label × Nat)) : AsmOperand → Option Int
  | .position n => n.value env
  | .immediate n => n.value env
  | .relativePlus n => n.value env
  | .relativeMinus n => (n.value env).map fun v => -v

/-- The parameter cells of a list of operands, in order. -/
def operandCells (env : List (Label × Nat)) : List AsmOperand → Option (List Int)
  | [] => some []
  | o :: os => (o.cell env).bind fun c => (operandCells env os).map fun cs => c :: cs

/-- The cells of a statement (R84): the canonical opcode cell of R82, then the parameter cells. An integer that is no
cell value is placed as it stands; LOAD rejects the program then (log 14). -/
def AsmStmt.cells (env : List (Label × Nat)) (t : AsmStmt) : Option (List Int) :=
  match t with
  | .data vs => some vs
  | t => t.instr.bind fun p => (operandCells env p.2).map fun cs => encodeCells p.1 cs

/-- The cells of the lines, one after the other. -/
def linesCells (env : List (Label × Nat)) : List AsmLine → Option (List Int)
  | [] => some []
  | l :: ls =>
    (match l.stmt with
      | some t => t.cells env
      | none => some []).bind fun c => (linesCells env ls).map fun cs => c ++ cs

/-- The program a source assembles to (R84); none if a label is unknown, or written twice, be it at one address
(log 14). -/
def assemble (ls : List AsmLine) : Option (List Int) :=
  if ((symbols 0 ls).map (·.1)).Nodup then linesCells (symbols 0 ls) ls else none

/-! ## Text -/

/-- Cut at every `c`. -/
def splitAt (c : Char) : List Char → List (List Char)
  | [] => [[]]
  | x :: xs =>
    if x = c then [] :: splitAt c xs
    else match splitAt c xs with
      | [] => [[x]]
      | w :: ws => (x :: w) :: ws

/-- A space between words (log 14). -/
def isBlank (c : Char) : Bool := c = ' ' || c = '\t' || c = '\r'

/-- Without the blanks at either end. -/
def trim (cs : List Char) : List Char := ((cs.dropWhile isBlank).reverse.dropWhile isBlank).reverse

/-- The digits of a decimal number, most significant first. -/
def parseDigits : Nat → List Char → Option Nat
  | n, [] => some n
  | n, c :: cs =>
    if 48 ≤ c.toNat ∧ c.toNat ≤ 57 then parseDigits (10 * n + (c.toNat - 48)) cs else none

/-- A decimal integer, possibly negative (R83). -/
def parseInt : List Char → Option Int
  | [] => none
  | '-' :: cs => if cs = [] then none else (parseDigits 0 cs).map fun n => -(n : Int)
  | cs => (parseDigits 0 cs).map fun n => (n : Int)

/-- A letter or an underscore. -/
def isLetter (c : Char) : Bool :=
  (decide (65 ≤ c.toNat) && decide (c.toNat ≤ 90)) || (decide (97 ≤ c.toNat) && decide (c.toNat ≤ 122)) || c = '_'

/-- A label's name: a letter, then letters and digits (log 14). -/
def parseLabel (cs : List Char) : Option Label :=
  match cs with
  | [] => none
  | c :: rest =>
    if isLetter c && rest.all (fun d => isLetter d || (decide (48 ≤ d.toNat) && decide (d.toNat ≤ 57))) then some cs
    else none

/-- The n of an operand. -/
def parseExpr (cs : List Char) : Option AsmExpr :=
  match parseInt cs with
  | some n => some (.int n)
  | none => (parseLabel cs).map .label

/-- The inside of `[...]`: `rb+n`, `rb-n` or `n`; blanks around `rb`, its sign and n are ignored (log 14). -/
def parseBracketed (cs : List Char) : Option AsmOperand :=
  match trim cs with
  | 'r' :: 'b' :: rest =>
    match trim rest with
    | '+' :: n => (parseExpr (trim n)).map .relativePlus
    | '-' :: n => (parseExpr (trim n)).map .relativeMinus
    | _ => (parseExpr (trim cs)).map .position
  | n => (parseExpr n).map .position

/-- One operand (R83); blanks around it, after `#` and inside the brackets are ignored (log 14). -/
def parseOperand (cs : List Char) : Option AsmOperand :=
  match trim cs with
  | '#' :: rest => (parseExpr (trim rest)).map .immediate
  | '[' :: rest =>
    match rest.reverse with
    | ']' :: inner => parseBracketed inner.reverse
    | _ => none
  | _ => none

/-- All of a list, or nothing. -/
def parseEach {α : Type} (f : List Char → Option α) : List (List Char) → Option (List α)
  | [] => some []
  | w :: ws => (f w).bind fun x => (parseEach f ws).map fun xs => x :: xs

/-- A mnemonic of R80 or R85 with as many operands as it has parameters (R84). -/
def stmtOf (mnemonic : List Char) (ops : List AsmOperand) : Option AsmStmt :=
  match mnemonic, ops with
  | ['A', 'D', 'D'], [a, b, d] => some (.add a b d)
  | ['M', 'U', 'L'], [a, b, d] => some (.mul a b d)
  | ['I', 'N'], [d] => some (.inp d)
  | ['O', 'U', 'T'], [a] => some (.out a)
  | ['J', 'T'], [c, t] => some (.jt c t)
  | ['J', 'F'], [c, t] => some (.jf c t)
  | ['L', 'T'], [a, b, d] => some (.lt a b d)
  | ['E', 'Q'], [a, b, d] => some (.eq a b d)
  | ['A', 'R', 'B'], [a] => some (.arb a)
  | ['H', 'A', 'L', 'T'], [] => some .halt
  | ['J', 'M', 'P'], [t] => some (.jmp t)
  | ['M', 'O', 'V'], [s, d] => some (.mov s d)
  | ['C', 'L', 'R'], [d] => some (.clr d)
  | ['N', 'E', 'G'], [s, d] => some (.neg s d)
  | ['N', 'O', 'P'], [] => some .nop
  | _, _ => none

/-- A statement without its label and comment (R84). Mnemonics are written in capitals, and DATA has at least one value
(log 14). -/
def parseStmt (cs : List Char) : Option AsmStmt :=
  let mnemonic := cs.takeWhile fun c => !isBlank c
  let rest := trim (cs.dropWhile fun c => !isBlank c)
  if mnemonic = ['D', 'A', 'T', 'A'] then
    (parseEach (fun w => parseInt (trim w)) (splitAt ',' rest)).map .data
  else if rest = [] then stmtOf mnemonic []
  else (parseEach parseOperand (splitAt ',' rest)).bind (stmtOf mnemonic)

/-- The statement part of a line, which may be empty (log 14). -/
def parseBody (cs : List Char) : Option (Option AsmStmt) :=
  if trim cs = [] then some none else (parseStmt (trim cs)).map some

/-- One line (R84): the comment goes, then `label:` if there is one. Blanks around the label's name, before its colon
too, are ignored, and a line has at most one label (log 14). -/
def parseLine (cs : List Char) : Option AsmLine :=
  match splitAt ':' (cs.takeWhile fun c => c ≠ ';') with
  | [body] => (parseBody body).map fun t => { label := none, stmt := t }
  | [l, body] =>
    (parseLabel (trim l)).bind fun x => (parseBody body).map fun t => { label := some x, stmt := t }
  | _ => none

/-- The program of a source text: one statement a line (R84); none if any line is not one (log 14). -/
def assembleText (src : List Char) : Option (List Int) :=
  (parseEach parseLine (splitAt '\n' src)).bind assemble

end Sys2Proof.Machine
end

