-- ==== Sys2Proof/Machine/HostInterface.lean ====
section
/-! DEFINITION. The host's eight transactions (48_host_interface.md) as data, and what each does and responds. -/

namespace Sys2Proof.Machine

/-- The numeric codes of R26. -/
def Status.code : Status → Nat
  | .ready => 0
  | .running => 1
  | .awaitingInput => 2
  | .halted => 3

/-- The numeric codes of R210. -/
def FaultCause.code : FaultCause → Nat
  | .none => 0
  | .invalidOpcode => 1
  | .invalidMode => 2
  | .negativeAddress => 3
  | .overflow => 4
  | .capacityExceeded => 5
  | .outputFull => 6

/-- The tuple STATUS responds with (R188). -/
structure StatusReport where
  statusCode : Nat
  causeCode  : Nat
  faultParam : Nat
  faultValue : Int
  pc         : Nat
  rb         : Int
  inqLen     : Nat
  outqLen    : Nat
  deriving DecidableEq, Repr

/-- What a transaction responds. -/
inductive Response where
  | ok
  /-- LOAD of a program that is no program of this core (R181). -/
  | rejected
  /-- PROVIDE_INPUT to a full queue (R182). -/
  | full
  /-- STEP or RUN: the new status (R183). -/
  | status (s : Status)
  /-- STEP or RUN: the fault raised or latched (R183, R218, R221). -/
  | fault (cause : FaultCause) (param : Nat) (value : Int)
  /-- DRAIN_OUTPUT (R185). -/
  | output (xs : List Int)
  /-- PEEK (R186). -/
  | cell (v : Int)
  /-- PEEK or POKE at a negative index (R186, R187). -/
  | negativeAddress
  /-- PEEK or POKE beyond a finite MEM_CAPACITY (R186, R187). -/
  | capacityExceeded
  /-- STATUS (R188). -/
  | report (r : StatusReport)
  /-- PROVIDE_INPUT or POKE of a value that is no cell value: the interface cannot carry it, so there is no such
  transaction. The model's own, no response of the hardware (R191 (1), log 10). -/
  | notCarried
  /-- RUN has not responded within its fuel: the model's own, no response of the hardware (R229, I11, log 7). -/
  | stillRunning
  deriving DecidableEq, Repr

/-- The transactions of R180. RUN carries the fuel the model gives it (log 7). -/
inductive Transaction where
  | load (program : List Int)
  | provideInput (x : Int)
  | step
  | run (fuel : Nat)
  | drainOutput
  | peek (i : Int)
  | poke (i : Int) (x : Int)
  | status
  deriving DecidableEq, Repr

/-- LOAD makes a core from a program (R181), or none if a value is no cell value or the program is too long. -/
def load (c : Config) (p : List Int) : Option State :=
  if (∀ v ∈ p, InCell c.cellWidth v) ∧ c.memCapacity.holds p.length = true then
    some { State.empty c with mem := Memory.ofProgram 0 p, memLen := p.length }
  else none

/-- The state after one STEP. -/
def stepState (s : State) : State :=
  match step s with
  | .next t => t
  | .fault _ => s
  | .refused _ => s

/-- What STEP or RUN responds in the state it leaves: the latched fault, or the status (R183, R221). -/
def stepResponse (s : State) : Response :=
  if s.faultCause = .none then .status s.status
  else .fault s.faultCause s.faultParam s.faultValue

/-- RUN goes on exactly while the core has neither faulted, halted nor paused (R184). -/
def State.goesOn (s : State) : Bool :=
  decide (s.faultCause = .none) && decide (s.status ≠ .halted) && decide (s.status ≠ .awaitingInput)

/-- RUN (R184), for at most `fuel` steps; out of fuel, the state is the one those steps leave (log 7). -/
def run : Nat → State → Response × State
  | 0, s => (.stillRunning, s)
  | fuel + 1, s =>
    if (stepState s).goesOn then run fuel (stepState s) else (stepResponse (stepState s), stepState s)

/-- PROVIDE_INPUT (R182); a value the interface cannot carry makes no transaction (R191 (1), log 10). -/
def provideInput (x : Int) (s : State) : Response × State :=
  if ¬ InCell s.config.cellWidth x then (.notCarried, s)
  else if s.config.inDepth.admits s.inq.length then (.ok, s.setInq (s.inq ++ [x])) else (.full, s)

/-- DRAIN_OUTPUT (R185). -/
def drainOutput (s : State) : Response × State := (.output s.outq, s.setOutq [])

/-- PEEK (R186). An error response latches nothing. -/
def peek (i : Int) (s : State) : Response × State :=
  match memRead 0 i s with
  | .value v t => (.cell v, t)
  | .fault .negativeAddress _ _ _ => (.negativeAddress, s)
  | .fault _ _ _ _ => (.capacityExceeded, s)

/-- POKE (R187). An error response latches nothing; a value the interface cannot carry makes no transaction (R191 (1),
log 10). -/
def poke (i : Int) (x : Int) (s : State) : Response × State :=
  if ¬ InCell s.config.cellWidth x then (.notCarried, s)
  else
    match memWrite 0 i x s with
    | .value _ t => (.ok, t)
    | .fault .negativeAddress _ _ _ => (.negativeAddress, s)
    | .fault _ _ _ _ => (.capacityExceeded, s)

/-- The tuple of R188. -/
def statusReport (s : State) : StatusReport :=
  { statusCode := s.status.code, causeCode := s.faultCause.code, faultParam := s.faultParam
    faultValue := s.faultValue, pc := s.pc, rb := s.rb, inqLen := s.inq.length, outqLen := s.outq.length }

/-- One transaction: it runs to completion before the next begins (R180, R189). A rejected LOAD makes no core, and
the core there was, if any, stays as it was (log 9). -/
def transact (t : Transaction) (s : State) : Response × State :=
  match t with
  | .load p =>
    match load s.config p with
    | some u => (.ok, u)
    | none => (.rejected, s)
  | .provideInput x => provideInput x s
  | .step => (stepResponse (stepState s), stepState s)
  | .run fuel => run fuel s
  | .drainOutput => drainOutput s
  | .peek i => peek i s
  | .poke i x => poke i x s
  | .status => (.report (statusReport s), s)

/-- A sequence of transactions, each after the one before it has responded (R189). After a RUN out of fuel, which has
not responded, the next acts on the state its steps have left, as after that many STEPs: the model's choice (log 7). -/
def transactAll : List Transaction → State → List Response × State
  | [], s => ([], s)
  | t :: ts, s =>
    ((transact t s).1 :: (transactAll ts (transact t s).2).1, (transactAll ts (transact t s).2).2)

/-- R191 (1): every value the transaction passes is a cell value. -/
abbrev Transaction.passesCells (w : Nat) : Transaction → Prop
  | .load p => ∀ v ∈ p, InCell w v
  | .provideInput x => InCell w x
  | .poke _ x => InCell w x
  | .step => True
  | .run _ => True
  | .drainOutput => True
  | .peek _ => True
  | .status => True

end Sys2Proof.Machine
end

