-- ==== Sys2Proof/Machine/System.lean ====
section
/-! DEFINITION. Several cores side by side, sharing nothing, and the amplifier chain (R192, R227). -/

namespace Sys2Proof.Machine

/-- The cores the host has made, in the order it made them. They have no identifiers of their own (R227): the
position here is the host's name for a core (log 13). -/
structure System where
  cores : List State
  deriving DecidableEq, Repr

/-- No core yet. -/
def System.none : System := { cores := [] }

/-- LOAD that makes a new core (R181, R192). -/
def System.create (c : Config) (p : List Int) (y : System) : Response × System :=
  match load c p with
  | some s => (.ok, { cores := y.cores ++ [s] })
  | .none => (.rejected, y)

/-- One transaction with core `k`; nothing happens if there is no such core. -/
def System.transact (k : Nat) (t : Transaction) (y : System) : Option Response × System :=
  match y.cores[k]? with
  | some s => (some (Machine.transact t s).1, { cores := y.cores.set k (Machine.transact t s).2 })
  | .none => (.none, y)

/-- PROVIDE_INPUT of each value in order (R192). -/
def pushAll : List Int → State → State
  | [], s => s
  | x :: xs, s => pushAll xs (provideInput x s).2

/-- One link of the amplifier chain (R192): drain core `a`, push its outputs in order into core `b`, run `b`. The
response is that of the RUN (log 13). -/
def System.chain (a b fuel : Nat) (y : System) : Option Response × System :=
  match y.cores[a]? with
  | .none => (.none, y)
  | some s =>
    let y1 : System := { cores := y.cores.set a (drainOutput s).2 }
    match y1.cores[b]? with
    | .none => (.none, y1)
    | some t =>
      let u := run fuel (pushAll s.outq t)
      (some u.1, { cores := y1.cores.set b u.2 })

end Sys2Proof.Machine
end

