-- ==== Sys2Proof/Safety.lean ====
section
/-! DEFINITION. The terms claims use: what a parameter denotes, when it can be resolved, which fault a step raises,
how a run ends (R193), and the invariants of the machine. -/

namespace Sys2Proof.Machine

/-! ## What a parameter denotes, said of the state before the step -/

/-- `M[a]` for an address as instructions compute it; below 0 there is no cell, and the value said here is 0. -/
def State.cell (s : State) (a : Int) : Int := if a < 0 then 0 else s.mem.read a.toNat

/-- `a` is a legal address: 0 ≤ a < MEM_CAPACITY (R8, R60). -/
abbrev State.legalAddr (s : State) (a : Int) : Prop := 0 ≤ a ∧ s.config.memCapacity.admits a.toNat = true

/-- The content of parameter `k`'s cell (R70, R79). -/
def State.param (s : State) (k : Nat) : Int := s.mem.read (s.pc + k)

/-- The parameter cell of parameter `k` can be read. -/
abbrev State.paramLegal (s : State) (k : Nat) : Prop := s.config.memCapacity.admits (s.pc + k) = true

/-- The address parameter `k` stands for in Position or Relative mode (R102, R104). -/
def operandAddr (s : State) (k : Nat) (m : Mode) : Int := effectiveAddress m (s.param k) s.rb

/-- The value of read parameter `k` (R100): the cell itself in Immediate mode, else the cell it addresses. -/
def operandValue (s : State) (k : Nat) (m : Mode) : Int :=
  match m with
  | .immediate => s.param k
  | .position => s.cell (operandAddr s k .position)
  | .relative => s.cell (operandAddr s k .relative)
  | .undefined _ => 0

/-- Read parameter `k` resolves without a fault (R100). -/
abbrev Readable (s : State) (k : Nat) (m : Mode) : Prop :=
  match m with
  | .immediate => s.paramLegal k
  | .position => s.paramLegal k ∧ s.legalAddr (operandAddr s k .position)
  | .relative => s.paramLegal k ∧ s.legalAddr (operandAddr s k .relative)
  | .undefined _ => False

/-- Write parameter `k` resolves without a fault (R101). -/
abbrev Writable (s : State) (k : Nat) (m : Mode) : Prop :=
  match m with
  | .position => s.paramLegal k ∧ s.legalAddr (operandAddr s k .position)
  | .relative => s.paramLegal k ∧ s.legalAddr (operandAddr s k .relative)
  | .immediate => False
  | .undefined _ => False

/-- `mem_len` after read parameter `k` has resolved, `n` being what it was before (R25, R51). -/
def lenAfterRead (s : State) (k : Nat) (m : Mode) (n : Nat) : Nat :=
  match m with
  | .immediate => max n (s.pc + k + 1)
  | .position => max (max n (s.pc + k + 1)) ((operandAddr s k .position).toNat + 1)
  | .relative => max (max n (s.pc + k + 1)) ((operandAddr s k .relative).toNat + 1)
  | .undefined _ => n

/-- `mem_len` after write parameter `k` has resolved: only the parameter cell was read (R101). -/
def lenAfterWrite (s : State) (k : Nat) (n : Nat) : Nat := max n (s.pc + k + 1)

/-! ## Which fault a step raises -/

/-- A fault as the latch records it: cause, parameter, value (R210). -/
abbrev FaultInfo := FaultCause × Nat × Int

/-- The fault of a parameter that stands for address `a`, if any, in the order of R220: its parameter cell, then the
address. -/
def addressedFault (s : State) (k : Nat) (a : Int) : Option FaultInfo :=
  if ¬ s.paramLegal k then some (.capacityExceeded, k, (s.pc + k : Nat))
  else if a < 0 then some (.negativeAddress, k, a)
  else if ¬ s.legalAddr a then some (.capacityExceeded, k, a)
  else none

/-- The fault of resolving read parameter `k`, if any (R100, R212, R213, R215): the mode first. -/
def readFault (s : State) (k : Nat) (m : Mode) : Option FaultInfo :=
  match m with
  | .undefined d => some (.invalidMode, k, d)
  | .immediate => if ¬ s.paramLegal k then some (.capacityExceeded, k, (s.pc + k : Nat)) else none
  | .position => addressedFault s k (operandAddr s k .position)
  | .relative => addressedFault s k (operandAddr s k .relative)

/-- The fault of resolving write parameter `k`, if any (R101, R212, R213, R215): the mode first. -/
def writeFault (s : State) (k : Nat) (m : Mode) : Option FaultInfo :=
  match m with
  | .undefined d => some (.invalidMode, k, d)
  | .immediate => some (.invalidMode, k, 1)
  | .position => addressedFault s k (operandAddr s k .position)
  | .relative => addressedFault s k (operandAddr s k .relative)

/-- Overflow, if the exact result is no cell value (R132, R214). -/
def overflowFault (s : State) (r : Int) : Option FaultInfo :=
  if InCell s.config.cellWidth r then none else some (.overflow, 0, 0)

/-- The three parameters of an F4 instruction in turn (R220). -/
def tripleFault (s : State) (m1 m2 m3 : Mode) : Option FaultInfo :=
  (readFault s 1 m1).or ((readFault s 2 m2).or (writeFault s 3 m3))

/-- A taken jump: the target parameter, then its sign (R152, R220). -/
def jumpFault (s : State) (m2 : Mode) : Option FaultInfo :=
  (readFault s 2 m2).or
    (if operandValue s 2 m2 < 0 then some (.negativeAddress, 2, operandValue s 2 m2) else none)

/-- The fault an instruction raises once it is decoded, in the order of R220: its resolved parameters, then its own
check. -/
def execFault (s : State) : Instr → Option FaultInfo
  | .add m1 m2 m3 =>
    (tripleFault s m1 m2 m3).or (overflowFault s (operandValue s 1 m1 + operandValue s 2 m2))
  | .mul m1 m2 m3 =>
    (tripleFault s m1 m2 m3).or (overflowFault s (operandValue s 1 m1 * operandValue s 2 m2))
  | .inp m1 => writeFault s 1 m1
  | .out m1 =>
    (readFault s 1 m1).or
      (if s.config.outDepth.admits s.outq.length then none else some (.outputFull, 1, operandValue s 1 m1))
  | .jt m1 m2 => (readFault s 1 m1).or (if operandValue s 1 m1 ≠ 0 then jumpFault s m2 else none)
  | .jf m1 m2 => (readFault s 1 m1).or (if operandValue s 1 m1 = 0 then jumpFault s m2 else none)
  | .lt m1 m2 m3 => tripleFault s m1 m2 m3
  | .eq m1 m2 m3 => tripleFault s m1 m2 m3
  | .arb m1 => (readFault s 1 m1).or (overflowFault s (s.rb + operandValue s 1 m1))
  | .halt => none

/-- The fault a step raises, all of R220: fetch, decode, then the instruction's. -/
def stepFault (s : State) : Option FaultInfo :=
  if ¬ s.paramLegal 0 then some (.capacityExceeded, 0, s.pc)
  else
    match decode (s.mem.read s.pc) with
    | .error _ => some (.invalidOpcode, 0, s.mem.read s.pc)
    | .ok i => execFault s i

/-- An instruction that has a fault to raise raises it, and does nothing else but grow `mem_len` (R111, R218). -/
def RaisesItsFault (s : State) (i : Instr) : Prop :=
  ∀ c k x, execFault s i = some (c, k, x) →
    ∃ n, s.memLen ≤ n ∧
      exec i s = .next { s with memLen := n, faultCause := c, faultParam := k, faultValue := x, status := .running }

/-! ## What a completed instruction leaves -/

/-- `mem_len` after the three parameters of an F4 instruction have resolved (R25, R108). -/
def lenAfterTriple (s : State) (m1 m2 : Mode) : Nat :=
  lenAfterWrite s 3 (lenAfterRead s 2 m2 (lenAfterRead s 1 m1 s.memLen))

/-- The state after a store of `v` at address `a` by an instruction of `len` cells, `n` being `mem_len` before the
store: one cell, `mem_len`, `pc` and `status` change, and nothing else (R52, R108, R109, R110). -/
def State.afterStore (s : State) (a : Int) (v : Int) (len n : Nat) : State :=
  { s with mem := s.mem.write a.toNat v, memLen := max n (a.toNat + 1), pc := s.pc + len, status := .running }

/-- The parameter an instruction stores to: its number and mode (R78). -/
def destination : Instr → Option (Nat × Mode)
  | .add _ _ m3 => some (3, m3)
  | .mul _ _ m3 => some (3, m3)
  | .inp m1 => some (1, m1)
  | .out _ => none
  | .jt _ _ => none
  | .jf _ _ => none
  | .lt _ _ m3 => some (3, m3)
  | .eq _ _ m3 => some (3, m3)
  | .arb _ => none
  | .halt => none

/-- The value an instruction stores when it completes (R130, R131, R140, R160, R161); none for a form that stores
nothing, and for IN with no input. -/
def storedValue (s : State) : Instr → Option Int
  | .add m1 m2 _ => some (operandValue s 1 m1 + operandValue s 2 m2)
  | .mul m1 m2 _ => some (operandValue s 1 m1 * operandValue s 2 m2)
  | .inp _ => s.inq.head?
  | .out _ => none
  | .jt _ _ => none
  | .jf _ _ => none
  | .lt m1 m2 _ => some (if operandValue s 1 m1 < operandValue s 2 m2 then 1 else 0)
  | .eq m1 m2 _ => some (if operandValue s 1 m1 = operandValue s 2 m2 then 1 else 0)
  | .arb _ => none
  | .halt => none

/-- A jump whose condition, as its parameter 1 reads, takes it (R150, R151): the mode of its target parameter. -/
def takenTarget (s : State) : Instr → Option Mode
  | .add _ _ _ => none
  | .mul _ _ _ => none
  | .inp _ => none
  | .out _ => none
  | .jt m1 m2 => if operandValue s 1 m1 ≠ 0 then some m2 else none
  | .jf m1 m2 => if operandValue s 1 m1 = 0 then some m2 else none
  | .lt _ _ _ => none
  | .eq _ _ _ => none
  | .arb _ => none
  | .halt => none

/-! ## How a run ends (R193) -/

/-- Faulted, "poisoned" (R27): failed, never resumable. -/
abbrev State.faulted (s : State) : Prop := s.faultCause ≠ .none

/-- A step will execute an instruction: not faulted, not Halted (R106). -/
abbrev State.live (s : State) : Prop := s.faultCause = .none ∧ s.status ≠ .halted

/-- Finished (R193). -/
abbrev State.finished (s : State) : Prop := s.status = .halted ∧ s.faultCause = .none

/-- Suspended: not finished, resumable (R193). -/
abbrev State.suspended (s : State) : Prop := s.status = .awaitingInput ∧ s.faultCause = .none

/-- The instruction a live core is about to run, if its opcode cell is legal and reachable (R107). -/
def State.current (s : State) : Option Instr :=
  if s.paramLegal 0 then
    match decode (s.mem.read s.pc) with
    | .ok i => some i
    | .error _ => none
  else none

/-! ## What OUT appends over a sequence of transactions (R143) -/

/-- What one step appends to the output log: the operand of a completed OUT, nothing otherwise (R30, R141). -/
def stepEmits (s : State) : List Int :=
  if s.live then
    match s.current with
    | some (.out m1) => if execFault s (.out m1) = none then [operandValue s 1 m1] else []
    | _ => []
  else []

/-- What the steps of one RUN append. -/
def runEmits : Nat → State → List Int
  | 0, _ => []
  | fuel + 1, s => stepEmits s ++ if (stepState s).goesOn then runEmits fuel (stepState s) else []

/-- What one transaction appends: only STEP and RUN execute instructions (R180). -/
def emits (t : Transaction) (s : State) : List Int :=
  match t with
  | .step => stepEmits s
  | .run fuel => runEmits fuel s
  | .load _ => []
  | .provideInput _ => []
  | .drainOutput => []
  | .peek _ => []
  | .poke _ _ => []
  | .status => []

/-- Everything OUT appends over a sequence of transactions. -/
def emitsAll : List Transaction → State → List Int
  | [], _ => []
  | t :: ts, s => emits t s ++ emitsAll ts (transact t s).2

/-- Everything a sequence of responses drained, in order (R185). -/
def drained : List Response → List Int
  | [] => []
  | .output xs :: rs => xs ++ drained rs
  | _ :: rs => drained rs

/-- The transaction is not LOAD. -/
def Transaction.notLoad : Transaction → Bool
  | .load _ => false
  | _ => true

/-! ## Invariants -/

/-- What every core the host can make and drive has: the ranges, depths and forms of R6, R7, R24 to R30, and the
latch's consistency (R27, R28, R218). -/
structure State.Inv (s : State) : Prop where
  config_legal : s.config.legal = true
  mem_wf       : s.mem.wf
  mem_cells    : ∀ c ∈ s.mem, InCell s.config.cellWidth c.2
  mem_legal    : ∀ c ∈ s.mem, s.config.memCapacity.admits c.1 = true
  mem_below    : ∀ c ∈ s.mem, c.1 < s.memLen
  len_legal    : s.config.memCapacity.holds s.memLen = true
  rb_cell      : InCell s.config.cellWidth s.rb
  inq_cells    : ∀ x ∈ s.inq, InCell s.config.cellWidth x
  inq_depth    : s.config.inDepth.holds s.inq.length = true
  outq_cells   : ∀ x ∈ s.outq, InCell s.config.cellWidth x
  outq_depth   : s.config.outDepth.holds s.outq.length = true
  latch_clear  : s.faultCause = .none → s.faultParam = 0 ∧ s.faultValue = 0
  latch_status : s.faulted → s.status = .running
  param_range  : s.faultParam ≤ 3

/-- The widths R8 and R28 derive for pc, addresses and the recorded value. They hold of a core whose host loads and
pokes only cells an instruction could address (log 12). -/
structure State.Bounded (s : State) : Prop where
  mem_reach   : ∀ c ∈ s.mem, c.1 ≤ 2 ^ s.config.cellWidth - 2
  pc_bound    : s.pc ≤ 2 ^ s.config.cellWidth + 2
  value_lower : -((2 ^ s.config.cellWidth : Nat) : Int) ≤ s.faultValue
  value_upper : s.faultValue ≤ ((2 ^ s.config.cellWidth + 2 : Nat) : Int)

end Sys2Proof.Machine
end

