-- ==== Sys2Proof/Certificates/Slice0/Obligations.lean ====
section
/-! DEFINITION. The statements for the provers. `s` is any state, reached or not; premises are on states and operands
alone. A cell's content is `s.cell a`, and `s.mem.read a` for a natural address. -/

open Sys2Proof Sys2Proof.Machine

/-! ## Reset -/

/-- R240: every piece of state after LOAD(P). The model's own: memory is in canonical form (log 1), and `State.reset` is
LOAD of the empty program on this hardware (log 6). -/
def Obligations.LoadLeavesResetState : Prop :=
  (∀ (c : Config) (p : List Int) (s : State), load c p = some s →
    (∀ i, s.mem.read i = p.getD i 0) ∧ s.mem.wf ∧ s.memLen = p.length ∧ s.pc = 0 ∧ s.rb = 0 ∧ s.status = .ready ∧
    s.faultCause = .none ∧ s.faultParam = 0 ∧ s.faultValue = 0 ∧ s.inq = [] ∧ s.outq = [] ∧ s.config = c) ∧
  load Config.hardware [] = some State.reset

/-- R181: LOAD makes a core exactly of a program of cell values that fits; a rejected LOAD changes nothing (log 9). -/
def Obligations.LoadAcceptsExactlyCellPrograms : Prop :=
  ∀ (s : State) (p : List Int),
    ((∀ v ∈ p, InCell s.config.cellWidth v) → s.config.memCapacity.holds p.length = true →
      ∃ t, load s.config p = some t ∧ transact (.load p) s = (.ok, t)) ∧
    ((∃ v ∈ p, ¬ InCell s.config.cellWidth v) ∨ s.config.memCapacity.holds p.length = false →
      transact (.load p) s = (.rejected, s))

/-- The reset state meets both invariants; it is LOAD of the empty program (the model's choice, log 6). -/
def Obligations.ResetMeetsInvariants : Prop := State.reset.Inv ∧ State.reset.Bounded

/-! ## Encoding -/

/-- Opcode cells written out from R71 and R80, and what they decode to. -/
def Obligations.WrittenOutCellsDecode : Prop :=
  decode 21101 = .ok (.add .immediate .immediate .relative) ∧
  decode 1002 = .ok (.mul .position .immediate .position) ∧
  decode 203 = .ok (.inp .relative) ∧
  decode 104 = .ok (.out .immediate) ∧
  decode 3105 = .ok (.jt .immediate (.undefined 3)) ∧
  decode 1206 = .ok (.jf .relative .immediate) ∧
  decode 107 = .ok (.lt .immediate .position .position) ∧
  decode 20008 = .ok (.eq .position .position .relative) ∧
  decode 209 = .ok (.arb .relative) ∧
  decode 1099 = .ok .halt ∧
  decode (-99) = .error .negativeCell ∧
  decode 100 = .error (.unknownOperation 0)

/-- Decoding the cells of any well-formed instruction, whatever its parameter cells and whatever follows, gives the
instruction, its parameter cells and the rest (R70, R82). -/
def Obligations.DecodeEncodeRoundTrip : Prop :=
  ∀ (i : Instr) (ps rest : List Int), i.wellFormed = true → ps.length = i.paramCount →
    decodeCells (encodeCells i ps ++ rest) = .ok (i, ps, rest)

/-- A cell decodes to an instruction exactly when it is non-negative and its digits, up to the instruction's last mode
digit, are the instruction's canonical encoding (R71, R75, R82). -/
def Obligations.DecodeExactlyCanonicalDigits : Prop :=
  ∀ (v : Int) (i : Instr),
    decode v = .ok i ↔ i.wellFormed = true ∧ 0 ≤ v ∧ v % (10 ^ (i.paramCount + 2) : Nat) = encode i

/-- R72: which cells are refused: the negative ones, and those whose low two digits are not in the opcode map. -/
def Obligations.IllegalOpcodeCells : Prop :=
  ∀ v : Int, (∃ e, decode v = .error e) ↔ (v < 0 ∨ v % 100 ∉ [1, 2, 3, 4, 5, 6, 7, 8, 9, 99])

/-- R75: digits above an instruction's last mode digit change nothing. -/
def Obligations.HighDigitsIgnored : Prop :=
  ∀ (v : Int) (i : Instr) (h : Nat), decode v = .ok i → decode (v + (10 ^ (i.paramCount + 2) * h : Nat)) = .ok i

/-! ## The step -/

/-- R106, R107: a live core whose opcode cell can be fetched and decodes runs exactly that instruction, in the state
whose `mem_len` the fetch has grown. -/
def Obligations.StepRunsDecodedInstruction : Prop :=
  ∀ (s : State) (i : Instr), s.live → s.paramLegal 0 → decode (s.mem.read s.pc) = .ok i →
    step s = exec i { s with memLen := max s.memLen (s.pc + 1) }

/-- Every instruction in every state, and every step, answers a next state: no outcome is a host fault or a refusal
(the model's choice of outcome, log 4). -/
def Obligations.EveryStepAnswersNext : Prop :=
  (∀ (i : Instr) (s : State), ∃ t, exec i s = .next t) ∧ ∀ s : State, ∃ t, step s = .next t

/-- R220 with R218: a live step raises exactly the first fault in priority order, which writes the latch and status and
nothing else but `mem_len`; and with no fault to raise it leaves the latch clear. -/
def Obligations.StepRaisesFirstFaultInPriorityOrder : Prop :=
  ∀ s t : State, s.live → step s = .next t →
    (∀ c k x, stepFault s = some (c, k, x) →
      s.memLen ≤ t.memLen ∧
      t = { s with memLen := t.memLen, faultCause := c, faultParam := k, faultValue := x, status := .running }) ∧
    (stepFault s = none →
      t.faultCause = .none ∧ t.faultParam = s.faultParam ∧ t.faultValue = s.faultValue)

/-- R221: the latch is sticky. STEP and RUN change nothing and respond with it, and no transaction but LOAD clears
it. -/
def Obligations.FaultLatchIsSticky : Prop :=
  ∀ s : State, s.faulted →
    step s = .next s ∧
    transact .step s = (.fault s.faultCause s.faultParam s.faultValue, s) ∧
    (∀ fuel, transact (.run (fuel + 1)) s = (.fault s.faultCause s.faultParam s.faultValue, s)) ∧
    ∀ t : Transaction, t.notLoad = true →
      (transact t s).2.faultCause = s.faultCause ∧ (transact t s).2.faultParam = s.faultParam ∧
      (transact t s).2.faultValue = s.faultValue

/-- R172: a Halted core that is not faulted: STEP and RUN respond Halted and change nothing. -/
def Obligations.HaltedCoreStaysAsItIs : Prop :=
  ∀ s : State, s.finished →
    step s = .next s ∧ transact .step s = (.status .halted, s) ∧
    ∀ fuel, transact (.run (fuel + 1)) s = (.status .halted, s)

/-- R109: the status after a step that ran. It is AwaitingInput exactly after an IN that resolved and found the queue
empty (R144), Halted exactly after HALT, and Running otherwise; never Ready. -/
def Obligations.StatusAfterLiveStep : Prop :=
  ∀ s t : State, s.live → step s = .next t →
    t.status ≠ .ready ∧
    (t.status = .awaitingInput ↔ ∃ m, s.current = some (.inp m) ∧ Writable s 1 m ∧ s.inq = []) ∧
    (t.status = .halted ↔ s.current = some .halt)

/-- R31 for the core: what a step may write, and which instruction writes it. At most one cell changes, by one write;
pc goes to the next instruction or to a taken jump's target, and nowhere at HALT, a pause or a fault; the latch is
written by the step's fault alone; status by a step that ran. -/
def Obligations.StepWriteMap : Prop :=
  ∀ s t : State, step s = .next t →
    (t.mem = s.mem ∨ ∃ i k m v, s.current = some i ∧ destination i = some (k, m) ∧
      0 ≤ operandAddr s k m ∧ t.mem = s.mem.write (operandAddr s k m).toNat v) ∧
    s.memLen ≤ t.memLen ∧
    (t.rb ≠ s.rb → ∃ m, s.current = some (.arb m)) ∧
    (t.inq ≠ s.inq → ∃ m x, s.current = some (.inp m) ∧ s.inq = x :: t.inq) ∧
    (t.outq ≠ s.outq → ∃ m x, s.current = some (.out m) ∧ t.outq = s.outq ++ [x]) ∧
    (t.faulted ∨ t.status = .awaitingInput ∨ t.status = .halted → t.pc = s.pc) ∧
    (t.pc ≠ s.pc → ∃ i, s.current = some i ∧
      match takenTarget s i with
      | some m => (t.pc : Int) = operandValue s 2 m
      | none => t.pc = s.pc + i.length) ∧
    (t.status ≠ s.status → s.live) ∧
    ((t.faultCause, t.faultParam, t.faultValue) ≠ (s.faultCause, s.faultParam, s.faultValue) →
      s.live ∧ stepFault s = some (t.faultCause, t.faultParam, t.faultValue)) ∧
    t.config = s.config

/-- What any instruction leaves unchanged, whether it completes, pauses or faults: every cell but the one it stores to,
rb but for ARB, inq but for IN, outq but for OUT, and the latch unless it has a fault to raise. -/
def Obligations.InstructionFrame : Prop :=
  ∀ (i : Instr) (s t : State), s.mem.wf → exec i s = .next t →
    (∀ a : Int, 0 ≤ a → (∀ k m, destination i = some (k, m) → a ≠ operandAddr s k m) → t.cell a = s.cell a) ∧
    ((∀ m, i ≠ .arb m) → t.rb = s.rb) ∧
    ((∀ m, i ≠ .inp m) → t.inq = s.inq) ∧
    ((∀ m, i ≠ .out m) → t.outq = s.outq) ∧
    (execFault s i = none →
      t.faultCause = s.faultCause ∧ t.faultParam = s.faultParam ∧ t.faultValue = s.faultValue) ∧
    s.memLen ≤ t.memLen ∧ t.config = s.config

/-- A stored cell reads back: ADD, MUL, LT, EQ and IN, with no fault to raise and a value to store, complete; the cell
at the address the destination parameter stood for then holds that value, and every other cell what it held (R52,
R65). -/
def Obligations.CompletedStoreReadsBack : Prop :=
  ∀ (i : Instr) (s : State) (k : Nat) (m : Mode) (v : Int), s.mem.wf →
    destination i = some (k, m) → execFault s i = none → storedValue s i = some v →
    ∃ t, exec i s = .next t ∧ 0 ≤ operandAddr s k m ∧
      ∀ b : Int, 0 ≤ b → t.cell b = if b = operandAddr s k m then v else s.cell b

/-! ## The instructions -/

/-- R130: ADD stores the exact sum, or raises its fault. -/
def Obligations.AddStoresExactSum : Prop :=
  ∀ (s : State) (m1 m2 m3 : Mode),
    (Readable s 1 m1 → Readable s 2 m2 → Writable s 3 m3 →
      InCell s.config.cellWidth (operandValue s 1 m1 + operandValue s 2 m2) →
      exec (.add m1 m2 m3) s = .next (s.afterStore (operandAddr s 3 m3)
        (operandValue s 1 m1 + operandValue s 2 m2) 4 (lenAfterTriple s m1 m2))) ∧
    RaisesItsFault s (.add m1 m2 m3)

/-- R131: MUL stores the exact product, or raises its fault. -/
def Obligations.MulStoresExactProduct : Prop :=
  ∀ (s : State) (m1 m2 m3 : Mode),
    (Readable s 1 m1 → Readable s 2 m2 → Writable s 3 m3 →
      InCell s.config.cellWidth (operandValue s 1 m1 * operandValue s 2 m2) →
      exec (.mul m1 m2 m3) s = .next (s.afterStore (operandAddr s 3 m3)
        (operandValue s 1 m1 * operandValue s 2 m2) 4 (lenAfterTriple s m1 m2))) ∧
    RaisesItsFault s (.mul m1 m2 m3)

/-- R160: LT stores 1 or 0, or raises its fault. -/
def Obligations.LtStoresTruth : Prop :=
  ∀ (s : State) (m1 m2 m3 : Mode),
    (Readable s 1 m1 → Readable s 2 m2 → Writable s 3 m3 →
      exec (.lt m1 m2 m3) s = .next (s.afterStore (operandAddr s 3 m3)
        (if operandValue s 1 m1 < operandValue s 2 m2 then 1 else 0) 4 (lenAfterTriple s m1 m2))) ∧
    RaisesItsFault s (.lt m1 m2 m3)

/-- R161: EQ stores 1 or 0, or raises its fault. -/
def Obligations.EqStoresTruth : Prop :=
  ∀ (s : State) (m1 m2 m3 : Mode),
    (Readable s 1 m1 → Readable s 2 m2 → Writable s 3 m3 →
      exec (.eq m1 m2 m3) s = .next (s.afterStore (operandAddr s 3 m3)
        (if operandValue s 1 m1 = operandValue s 2 m2 then 1 else 0) 4 (lenAfterTriple s m1 m2))) ∧
    RaisesItsFault s (.eq m1 m2 m3)

/-- R140: IN with input takes exactly the front value and stores it; with none it pauses, changing only status (and
`mem_len`); a bad destination faults either way, and the queue keeps its values. -/
def Obligations.InTakesFrontOrPauses : Prop :=
  ∀ (s : State) (m1 : Mode),
    (Writable s 1 m1 → ∀ x rest, s.inq = x :: rest →
      exec (.inp m1) s =
        .next { s.afterStore (operandAddr s 1 m1) x 2 (lenAfterWrite s 1 s.memLen) with inq := rest }) ∧
    (Writable s 1 m1 → s.inq = [] →
      exec (.inp m1) s = .next { s with memLen := lenAfterWrite s 1 s.memLen, status := .awaitingInput }) ∧
    RaisesItsFault s (.inp m1)

/-- R141: OUT appends its operand to the log, or raises its fault. -/
def Obligations.OutAppendsOperand : Prop :=
  ∀ (s : State) (m1 : Mode),
    (Readable s 1 m1 → s.config.outDepth.admits s.outq.length = true →
      exec (.out m1) s = .next { s with
        outq := s.outq ++ [operandValue s 1 m1], memLen := lenAfterRead s 1 m1 s.memLen
        pc := s.pc + 2, status := .running }) ∧
    RaisesItsFault s (.out m1)

/-- R150: JT not taken goes on whatever its target parameter is; taken, it goes to the target; else its fault. -/
def Obligations.JtJumpsOnNonZero : Prop :=
  ∀ (s : State) (m1 m2 : Mode),
    (Readable s 1 m1 → operandValue s 1 m1 = 0 →
      exec (.jt m1 m2) s = .next { s with
        memLen := lenAfterRead s 1 m1 s.memLen, pc := s.pc + 3, status := .running }) ∧
    (Readable s 1 m1 → operandValue s 1 m1 ≠ 0 → Readable s 2 m2 → 0 ≤ operandValue s 2 m2 →
      exec (.jt m1 m2) s = .next { s with
        memLen := lenAfterRead s 2 m2 (lenAfterRead s 1 m1 s.memLen)
        pc := (operandValue s 2 m2).toNat, status := .running }) ∧
    RaisesItsFault s (.jt m1 m2)

/-- R151: JF, the jump taken when the condition is 0. -/
def Obligations.JfJumpsOnZero : Prop :=
  ∀ (s : State) (m1 m2 : Mode),
    (Readable s 1 m1 → operandValue s 1 m1 ≠ 0 →
      exec (.jf m1 m2) s = .next { s with
        memLen := lenAfterRead s 1 m1 s.memLen, pc := s.pc + 3, status := .running }) ∧
    (Readable s 1 m1 → operandValue s 1 m1 = 0 → Readable s 2 m2 → 0 ≤ operandValue s 2 m2 →
      exec (.jf m1 m2) s = .next { s with
        memLen := lenAfterRead s 2 m2 (lenAfterRead s 1 m1 s.memLen)
        pc := (operandValue s 2 m2).toNat, status := .running }) ∧
    RaisesItsFault s (.jf m1 m2)

/-- R170: ARB adds its operand, read with the old rb, to rb exactly, or raises its fault. -/
def Obligations.ArbAddsToRelativeBase : Prop :=
  ∀ (s : State) (m1 : Mode),
    (Readable s 1 m1 → InCell s.config.cellWidth (s.rb + operandValue s 1 m1) →
      exec (.arb m1) s = .next { s with
        rb := s.rb + operandValue s 1 m1, memLen := lenAfterRead s 1 m1 s.memLen
        pc := s.pc + 2, status := .running }) ∧
    RaisesItsFault s (.arb m1)

/-- R171: HALT sets status Halted and changes nothing else. -/
def Obligations.HaltSetsHalted : Prop :=
  ∀ s : State, exec .halt s = .next { s with status := .halted }

/-- R132, R170: an exact result that is no cell value raises Overflow(0, 0) and stores nothing, in ADD, MUL and ARB. -/
def Obligations.OutOfRangeResultRaisesOverflow : Prop :=
  ∀ (s : State) (m1 m2 m3 : Mode) (i : Instr),
    ((i = .add m1 m2 m3 ∧ Readable s 1 m1 ∧ Readable s 2 m2 ∧ Writable s 3 m3 ∧
        ¬ InCell s.config.cellWidth (operandValue s 1 m1 + operandValue s 2 m2)) ∨
      (i = .mul m1 m2 m3 ∧ Readable s 1 m1 ∧ Readable s 2 m2 ∧ Writable s 3 m3 ∧
        ¬ InCell s.config.cellWidth (operandValue s 1 m1 * operandValue s 2 m2)) ∨
      (i = .arb m1 ∧ Readable s 1 m1 ∧ ¬ InCell s.config.cellWidth (s.rb + operandValue s 1 m1))) →
    ∃ n, s.memLen ≤ n ∧ exec i s = .next { s with
      memLen := n, faultCause := .overflow, faultParam := 0, faultValue := 0, status := .running }

/-- R212 for destinations: Immediate mode where a write address is required raises InvalidMode(k, 1), once the
parameters before it have resolved; for IN whether or not there is input. -/
def Obligations.ImmediateDestinationFaults : Prop :=
  ∀ (s : State) (m1 m2 : Mode),
    (Readable s 1 m1 → Readable s 2 m2 →
      ∀ i ∈ [Instr.add m1 m2 .immediate, .mul m1 m2 .immediate, .lt m1 m2 .immediate, .eq m1 m2 .immediate],
        ∃ n, s.memLen ≤ n ∧ exec i s = .next { s with
          memLen := n, faultCause := .invalidMode, faultParam := 3, faultValue := 1, status := .running }) ∧
    exec (.inp .immediate) s = .next { s with
      faultCause := .invalidMode, faultParam := 1, faultValue := 1, status := .running }

/-- R81, R212: an instruction none of whose parameters is illegal never raises InvalidMode, in any state. -/
def Obligations.LegalInstructionRaisesNoInvalidMode : Prop :=
  ∀ (i : Instr) (s t : State), i.legal = true → s.faultCause ≠ .invalidMode → exec i s = .next t →
    t.faultCause ≠ .invalidMode

/-- R152: a taken jump to a negative target raises NegativeAddress(2, t) with pc unchanged. -/
def Obligations.NegativeJumpTargetFaults : Prop :=
  ∀ (s : State) (m1 m2 : Mode), Readable s 1 m1 → Readable s 2 m2 → operandValue s 2 m2 < 0 →
    ∀ i, ((i = .jt m1 m2 ∧ operandValue s 1 m1 ≠ 0) ∨ (i = .jf m1 m2 ∧ operandValue s 1 m1 = 0)) →
      exec i s = .next { s with
        memLen := lenAfterRead s 2 m2 (lenAfterRead s 1 m1 s.memLen)
        faultCause := .negativeAddress, faultParam := 2, faultValue := operandValue s 2 m2, status := .running }

/-- R216: OUT on a full log raises OutputFull(1, x), x being the value not appended. -/
def Obligations.FullOutputLogFaults : Prop :=
  ∀ (s : State) (m1 : Mode), Readable s 1 m1 → s.config.outDepth.admits s.outq.length = false →
    exec (.out m1) s = .next { s with
      memLen := lenAfterRead s 1 m1 s.memLen
      faultCause := .outputFull, faultParam := 1, faultValue := operandValue s 1 m1, status := .running }

/-- R211: an opcode cell that is no instruction raises InvalidOpcode(0, v), before any parameter is touched. -/
def Obligations.InvalidOpcodeAtFetch : Prop :=
  ∀ (s : State) (e : DecodeError), s.live → s.paramLegal 0 → decode (s.mem.read s.pc) = .error e →
    step s = .next { s with
      memLen := max s.memLen (s.pc + 1)
      faultCause := .invalidOpcode, faultParam := 0, faultValue := s.mem.read s.pc, status := .running }

/-! ## Memory -/

/-- R51: MemRead. -/
def Obligations.MemReadChecksAndGrows : Prop :=
  ∀ (k : Nat) (a : Int) (s : State),
    (a < 0 → memRead k a s = .fault .negativeAddress k a s) ∧
    (0 ≤ a → s.config.memCapacity.admits a.toNat = false → memRead k a s = .fault .capacityExceeded k a s) ∧
    (s.legalAddr a → memRead k a s = .value (s.cell a) { s with memLen := max s.memLen (a.toNat + 1) })

/-- R52 with R65: MemWrite at a legal address; afterwards the cell reads as written and every other as before.
Elsewhere it faults and writes nothing. That a canonical memory stays canonical is the model's own (log 1). -/
def Obligations.MemWriteThenRead : Prop :=
  ∀ (k : Nat) (a v : Int) (s : State),
    (a < 0 → memWrite k a v s = .fault .negativeAddress k a s) ∧
    (0 ≤ a → s.config.memCapacity.admits a.toNat = false → memWrite k a v s = .fault .capacityExceeded k a s) ∧
    (s.legalAddr a → s.mem.wf →
      ∃ t, memWrite k a v s = .value () t ∧ t.mem.wf ∧
        (∀ b : Int, 0 ≤ b → t.cell b = if b = a then v else s.cell b) ∧
        t = { s with mem := t.mem, memLen := max s.memLen (a.toNat + 1) })

/-- The canonical form is the model's (log 1), for a memory whose representation R66 leaves to it: canonical memories
that read the same at every address are equal, so the form adds nothing to the map of R24. -/
def Obligations.MemoryIsDeterminedByReads : Prop :=
  ∀ m m' : Memory, m.wf → m'.wf → (∀ a, m.read a = m'.read a) → m = m'

/-- R25: `mem_len` never decreases, under any transaction but LOAD. -/
def Obligations.MemLenNeverDecreases : Prop :=
  ∀ (t : Transaction) (s : State), t.notLoad = true → s.memLen ≤ (transact t s).2.memLen

/-- R25, R32 (a): nothing observes `mem_len`. Two cores that differ in it alone respond alike to every sequence of
transactions and end differing in it alone. -/
def Obligations.MemLenIsUnobservable : Prop :=
  ∀ (ts : List Transaction) (s : State) (n : Nat),
    (transactAll ts { s with memLen := n }).1 = (transactAll ts s).1 ∧
    ∃ n', (transactAll ts { s with memLen := n }).2 = { (transactAll ts s).2 with memLen := n' }

/-! ## Invariants -/

/-- Every step keeps the machine's invariant. -/
def Obligations.StepKeepsInvariant : Prop :=
  ∀ s t : State, s.Inv → step s = .next t → t.Inv

/-- Every step keeps the bounds R8 and R213 derive: pc ≤ 2^W + 2, cells in use at addresses ≤ 2^W − 2, fault_value
within −2^W .. 2^W + 2. The premise `Bounded` is the model's own (log 12). -/
def Obligations.StepKeepsAddressBounds : Prop :=
  ∀ s t : State, s.Inv → s.Bounded → step s = .next t → t.Bounded

/-- Every transaction keeps the invariant. -/
def Obligations.TransactionKeepsInvariant : Prop :=
  ∀ (t : Transaction) (s : State), s.Inv → (transact t s).2.Inv

/-! ## The host interface -/

/-- R191 (1): no transaction brings the core a value that is no cell value. LOAD rejects it (R181, log 9); that
PROVIDE_INPUT and POKE of one change nothing is how the model says that the interface cannot carry it (log 10). -/
def Obligations.OnlyCellValuesAreCarried : Prop :=
  ∀ (t : Transaction) (s : State), ¬ t.passesCells s.config.cellWidth →
    (transact t s).2 = s ∧
    (transact t s).1 = match t with
      | .load _ => .rejected
      | _ => .notCarried

/-- R182: PROVIDE_INPUT of a cell value appends at the back, in any status, and changes nothing else; a full queue responds Full. -/
def Obligations.ProvideInputAppends : Prop :=
  ∀ (x : Int) (s : State), InCell s.config.cellWidth x →
    (s.config.inDepth.admits s.inq.length = true →
      transact (.provideInput x) s = (.ok, { s with inq := s.inq ++ [x] })) ∧
    (s.config.inDepth.admits s.inq.length = false → transact (.provideInput x) s = (.full, s))

/-- R185: DRAIN_OUTPUT responds with the whole log in order and empties it; nothing else changes. -/
def Obligations.DrainOutputEmptiesLog : Prop :=
  ∀ s : State, transact .drainOutput s = (.output s.outq, { s with outq := [] })

/-- R186, R187: PEEK, and POKE of a cell value. An error response latches nothing and changes nothing. -/
def Obligations.PeekAndPokeGoThroughMemory : Prop :=
  ∀ (i x : Int) (s : State), InCell s.config.cellWidth x →
    (i < 0 → transact (.peek i) s = (.negativeAddress, s) ∧ transact (.poke i x) s = (.negativeAddress, s)) ∧
    (0 ≤ i → s.config.memCapacity.admits i.toNat = false →
      transact (.peek i) s = (.capacityExceeded, s) ∧ transact (.poke i x) s = (.capacityExceeded, s)) ∧
    (s.legalAddr i →
      transact (.peek i) s = (.cell (s.cell i), { s with memLen := max s.memLen (i.toNat + 1) }) ∧
      transact (.poke i x) s =
        (.ok, { s with mem := s.mem.write i.toNat x, memLen := max s.memLen (i.toNat + 1) }))

/-- R187, R64: a POKE of the opcode cell at pc is what the next step executes, in whatever live status. -/
def Obligations.PokedOpcodeIsExecutedNext : Prop :=
  ∀ (s : State) (v : Int) (i : Instr), InCell s.config.cellWidth v → s.mem.wf → s.live → s.paramLegal 0 → decode v = .ok i →
    step (transact (.poke s.pc v) s).2 = exec i (transact (.poke s.pc v) s).2

/-- R188: STATUS responds with the tuple, in the numeric codes of R26 and R210, and changes nothing. -/
def Obligations.StatusReportsWithoutChange : Prop :=
  ∀ s : State, transact .status s =
    (.report { statusCode := match s.status with
                 | .ready => 0 | .running => 1 | .awaitingInput => 2 | .halted => 3
               causeCode := match s.faultCause with
                 | .none => 0 | .invalidOpcode => 1 | .invalidMode => 2 | .negativeAddress => 3
                 | .overflow => 4 | .capacityExceeded => 5 | .outputFull => 6
               faultParam := s.faultParam, faultValue := s.faultValue, pc := s.pc, rb := s.rb
               inqLen := s.inq.length, outqLen := s.outq.length }, s)

/-- R184: RUN responds exactly after the first step that leaves the core faulted, Halted or AwaitingInput, with what
STEP would respond there. The bound `fuel` is the model's own (log 7). -/
def Obligations.RunStopsAtFirstStop : Prop :=
  ∀ (fuel : Nat) (s t : State) (r : Response), r ≠ .stillRunning →
    (run fuel s = (r, t) ↔
      ∃ n, n < fuel ∧ t = stepState^[n + 1] s ∧ r = stepResponse t ∧
        (t.faulted ∨ t.status = .halted ∨ t.status = .awaitingInput) ∧
        ∀ k, k < n → (stepState^[k + 1] s).goesOn = true)

/-- R229: a core at a taken jump, JT or JF, whose target is the jump itself, in whatever modes, never stops, and RUN never responds, whatever the
fuel (the model's own, log 7). -/
def Obligations.SelfJumpNeverResponds : Prop :=
  ∀ (s : State) (m1 m2 : Mode) (i : Instr), s.live → s.current = some i →
    (i = .jt m1 m2 ∧ operandValue s 1 m1 ≠ 0) ∨ (i = .jf m1 m2 ∧ operandValue s 1 m1 = 0) →
    Readable s 1 m1 → Readable s 2 m2 → operandValue s 2 m2 = s.pc →
    ∀ fuel, (transact (.run fuel) s).1 = .stillRunning

/-- R143: what has been drained, followed by what is still in the log, is what was in the log followed by every value
OUT has appended, in order, over any sequence of transactions without a LOAD. -/
def Obligations.OutputLogConservesValues : Prop :=
  ∀ (ts : List Transaction) (s : State), (∀ t ∈ ts, t.notLoad = true) →
    drained (transactAll ts s).1 ++ (transactAll ts s).2.outq = s.outq ++ emitsAll ts s

/-- R142, R195: a step that does not pause does the same whatever stands further back in the input queue. -/
def Obligations.StepIgnoresLaterInput : Prop :=
  ∀ (s t : State) (xs : List Int), step s = .next t → (s.live → t.status ≠ .awaitingInput) →
    step { s with inq := s.inq ++ xs } = .next { t with inq := t.inq ++ xs }

/-- R194, whole runs: a core whose RUN has paused, given input and run again, goes on exactly as the same core started
with that input already queued. Fuel is the model's own (log 7). -/
def Obligations.SuspensionFidelity : Prop :=
  ∀ (fuel : Nat) (s t : State) (xs : List Int) (n : Nat),
    run fuel s = (.status .awaitingInput, t) → 1 ≤ n →
    ∃ k, run k { s with inq := s.inq ++ xs } = run n { t with inq := t.inq ++ xs }

/-- R192, R227: a transaction with one core leaves every other core as it was (cores as a list: log 13). -/
def Obligations.CoresShareNothing : Prop :=
  ∀ (y : System) (j k : Nat) (t : Transaction), j ≠ k →
    (System.transact k t y).2.cores[j]? = y.cores[j]?

/-- R192: one link of the amplifier chain, queues unbounded as on this hardware and every logged value a cell value
(R7): the drained outputs of `a` arrive in order at the back of `b`'s input queue, `b` runs, and every other core is as
it was (log 13). -/
def Obligations.ChainFeedsOutputsInOrder : Prop :=
  ∀ (y : System) (a b fuel : Nat) (s t : State), a ≠ b → y.cores[a]? = some s → y.cores[b]? = some t →
    t.config.inDepth = .unbounded → (∀ x ∈ s.outq, InCell t.config.cellWidth x) →
    (System.chain a b fuel y).1 = some (run fuel { t with inq := t.inq ++ s.outq }).1 ∧
    (System.chain a b fuel y).2.cores[b]? = some (run fuel { t with inq := t.inq ++ s.outq }).2 ∧
    (System.chain a b fuel y).2.cores[a]? = some { s with outq := [] } ∧
    ∀ j, j ≠ a → j ≠ b → (System.chain a b fuel y).2.cores[j]? = y.cores[j]?

/-! ## The assembly language -/

/-- R85: the encodings of the five pseudo-instructions, for operands that have values. -/
def Obligations.PseudoInstructionsEncode : Prop :=
  ∀ (env : List (Label × Nat)) (a d : AsmOperand) (p q : Int), a.cell env = some p → d.cell env = some q →
    (AsmStmt.jmp a).cells env = some [105 + 1000 * (a.mode.toDigit : Int), 1, p] ∧
    (AsmStmt.mov a d).cells env =
      some [1001 + 100 * (a.mode.toDigit : Int) + 10000 * (d.mode.toDigit : Int), p, 0, q] ∧
    (AsmStmt.clr d).cells env = some [1101 + 10000 * (d.mode.toDigit : Int), 0, 0, q] ∧
    (AsmStmt.neg a d).cells env =
      some [1002 + 100 * (a.mode.toDigit : Int) + 10000 * (d.mode.toDigit : Int), p, -1, q] ∧
    AsmStmt.nop.cells env = some [1105, 0, 0]

/-- R85: the effects of the five pseudo-instructions, said of the instruction each is: NOP goes on whatever its target
cell holds, JMP goes to its target, MOV copies, CLR clears, NEG negates, or raises Overflow. -/
def Obligations.PseudoInstructionEffects : Prop :=
  ∀ (s : State) (ms md : Mode),
    (s.paramLegal 1 → s.param 1 = 0 →
      exec (.jt .immediate .immediate) s = .next { s with
        memLen := max s.memLen (s.pc + 2), pc := s.pc + 3, status := .running }) ∧
    (s.paramLegal 1 → s.param 1 = 1 → Readable s 2 ms → 0 ≤ operandValue s 2 ms →
      ∃ n, exec (.jt .immediate ms) s = .next { s with
        memLen := n, pc := (operandValue s 2 ms).toNat, status := .running }) ∧
    (Readable s 1 ms → s.paramLegal 2 → s.param 2 = 0 → Writable s 3 md →
      InCell s.config.cellWidth (operandValue s 1 ms) →
      exec (.add ms .immediate md) s = .next (s.afterStore (operandAddr s 3 md) (operandValue s 1 ms) 4
        (lenAfterTriple s ms .immediate))) ∧
    (s.paramLegal 1 → s.paramLegal 2 → s.param 1 = 0 → s.param 2 = 0 → Writable s 3 md →
      exec (.add .immediate .immediate md) s = .next (s.afterStore (operandAddr s 3 md) 0 4
        (lenAfterTriple s .immediate .immediate))) ∧
    (Readable s 1 ms → s.paramLegal 2 → s.param 2 = -1 → Writable s 3 md →
      (InCell s.config.cellWidth (-operandValue s 1 ms) →
        exec (.mul ms .immediate md) s = .next (s.afterStore (operandAddr s 3 md) (-operandValue s 1 ms) 4
          (lenAfterTriple s ms .immediate))) ∧
      (operandValue s 1 ms = cellMin s.config.cellWidth →
        ∃ n, exec (.mul ms .immediate md) s = .next { s with
          memLen := n, faultCause := .overflow, faultParam := 0, faultValue := 0, status := .running }))

/-- R84: a statement's cells stand in the program at the address its place in the source gives it (a line
may be empty: log 14). -/
def Obligations.AssembledStatementsAreConsecutive : Prop :=
  ∀ (pre post : List AsmLine) (l : Option Label) (t : AsmStmt) (cells : List Int),
    assemble (pre ++ { label := l, stmt := some t } :: post) = some cells →
    ∃ c, t.cells (symbols 0 (pre ++ { label := l, stmt := some t } :: post)) = some c ∧ c.length = t.size ∧
      ∃ before after, cells = before ++ c ++ after ∧
        before.length = (pre.map fun x => match x.stmt with | some u => u.size | none => 0).sum
end

