-- ==== Sys2Proof/Laws/Cells.lean ====
section
/-! SUPPORT. Values every cell can hold. -/

namespace Sys2Proof.Machine

/-- 0, which a never-written cell reads as, is a cell value at every width (R7, R53). -/
theorem zero_inCell (w : Nat) : InCell w 0 := by
  have h : 1 ≤ 2 ^ (w - 1) := Nat.one_le_two_pow
  constructor <;> simp only [cellMin, cellMax] <;> generalize 2 ^ (w - 1) = z at * <;> omega

/-- The comparison results are cell values (R162). -/
theorem truth_inCell {w : Nat} (h : 64 ≤ w) (b : Bool) : InCell w (truth b) := by
  have h2 : 2 ^ 1 ≤ 2 ^ (w - 1) := Nat.pow_le_pow_right (by omega) (by omega)
  cases b <;> constructor <;> simp only [cellMin, cellMax, truth] <;> generalize 2 ^ (w - 1) = z at * <;> simp <;> omega

end Sys2Proof.Machine
end

