-- ==== Sys2Proof/Laws/Decode.lean ====
section
/-! SUPPORT. The digits of an encoded instruction, and the modes of a decoded one. -/

namespace Sys2Proof

/-- A well-formed mode is one decimal digit. -/
theorem Mode.toDigit_lt {m : Mode} (h : m.wellFormed = true) : m.toDigit < 10 := by
  cases m <;> simp_all [Mode.wellFormed, Mode.toDigit]
  omega

/-- A well-formed mode is what its digit stands for (R74). -/
theorem Mode.ofDigit_toDigit {m : Mode} (h : m.wellFormed = true) : Mode.ofDigit m.toDigit = m := by
  cases m with
  | undefined d =>
    simp only [Mode.wellFormed, Bool.and_eq_true, decide_eq_true_eq] at h
    simp only [Mode.toDigit]
    unfold Mode.ofDigit
    split <;> first | omega | rfl
  | _ => rfl

/-- The digit of the mode a digit stands for is that digit. -/
@[simp] theorem Mode.toDigit_ofDigit (d : Nat) : (Mode.ofDigit d).toDigit = d := by
  unfold Mode.ofDigit
  split <;> rfl

/-- Every digit stands for a well-formed mode. -/
theorem Mode.ofDigit_wellFormed {d : Nat} (h : d < 10) : (Mode.ofDigit d).wellFormed = true := by
  unfold Mode.ofDigit
  split <;> simp_all [Mode.wellFormed]
  omega

theorem digit_lt (v j : Nat) : digit v j < 10 := Nat.mod_lt _ (by omega)

theorem modeAt_wellFormed (v k : Nat) : (modeAt v k).wellFormed = true := Mode.ofDigit_wellFormed (digit_lt _ _)

/-- Digit `j` of a list of modes is mode `j`'s. -/
theorem digit_modesNumber {ms : List Mode} (h : ms.all Mode.wellFormed = true) {j : Nat} {m : Mode}
    (hj : ms[j]? = some m) : digit (modesNumber ms) j = m.toDigit := by
  induction ms generalizing j with
  | nil => simp at hj
  | cons x xs ih =>
    simp only [List.all_cons, Bool.and_eq_true] at h
    have hx := Mode.toDigit_lt h.1
    cases j with
    | zero =>
      simp at hj
      subst hj
      simp [digit, modesNumber, Nat.add_mul_mod_self_left, Nat.mod_eq_of_lt hx]
    | succ j =>
      rw [← ih h.2 (by simpa using hj)]
      simp only [digit, modesNumber, Nat.pow_succ', ← Nat.div_div_eq_div_mul]
      rw [show (x.toDigit + 10 * modesNumber xs) / 10 = modesNumber xs by omega]

/-- The opcode cell's low two digits are the operation, and digit k + 1 is parameter k's mode (R71, R82). -/
theorem encode_fields {op : Nat} (hop : op < 100) {ms : List Mode} (h : ms.all Mode.wellFormed = true) :
    (op + 100 * modesNumber ms) % 100 = op ∧
    ∀ j m, ms[j]? = some m → digit (op + 100 * modesNumber ms) (j + 2) = m.toDigit := by
  refine ⟨by omega, fun j m hj => ?_⟩
  rw [← digit_modesNumber h hj]
  simp only [digit]
  rw [Nat.pow_add, Nat.mul_comm (10 ^ j), ← Nat.div_div_eq_div_mul]
  rw [show (op + 100 * modesNumber ms) / 10 ^ 2 = modesNumber ms by omega]

/-- A list of modes as a number has no more digits than the list has modes. -/
theorem modesNumber_lt {ms : List Mode} (h : ms.all Mode.wellFormed = true) :
    modesNumber ms < 10 ^ ms.length := by
  induction ms with
  | nil => simp [modesNumber]
  | cons x xs ih =>
    simp only [List.all_cons, Bool.and_eq_true] at h
    have := ih h.2
    have := Mode.toDigit_lt h.1
    simp only [modesNumber, List.length_cons, Nat.pow_succ]
    omega

theorem Instr.opcode_lt (i : Instr) : i.opcode < 100 := by cases i <;> simp [Instr.opcode]

end Sys2Proof
end

