-- ==== Sys2Proof/Laws/State.lean ====
section
/-! SUPPORT. The named updates of State, field by field, so that no proof unfolds a record update. -/

namespace Sys2Proof.Machine.State

variable (s : State)

/-! ### grow -/

@[simp] theorem grow_mem (a : Nat) : (s.grow a).mem = s.mem := rfl
@[simp] theorem grow_memLen (a : Nat) : (s.grow a).memLen = max s.memLen (a + 1) := rfl
@[simp] theorem grow_pc (a : Nat) : (s.grow a).pc = s.pc := rfl
@[simp] theorem grow_rb (a : Nat) : (s.grow a).rb = s.rb := rfl
@[simp] theorem grow_status (a : Nat) : (s.grow a).status = s.status := rfl
@[simp] theorem grow_faultCause (a : Nat) : (s.grow a).faultCause = s.faultCause := rfl
@[simp] theorem grow_faultParam (a : Nat) : (s.grow a).faultParam = s.faultParam := rfl
@[simp] theorem grow_faultValue (a : Nat) : (s.grow a).faultValue = s.faultValue := rfl
@[simp] theorem grow_inq (a : Nat) : (s.grow a).inq = s.inq := rfl
@[simp] theorem grow_outq (a : Nat) : (s.grow a).outq = s.outq := rfl
@[simp] theorem grow_config (a : Nat) : (s.grow a).config = s.config := rfl

/-! ### storeCell -/

@[simp] theorem storeCell_mem (a : Nat) (v : Int) : (s.storeCell a v).mem = s.mem.write a v := rfl
@[simp] theorem storeCell_memLen (a : Nat) (v : Int) : (s.storeCell a v).memLen = max s.memLen (a + 1) := rfl
@[simp] theorem storeCell_pc (a : Nat) (v : Int) : (s.storeCell a v).pc = s.pc := rfl
@[simp] theorem storeCell_rb (a : Nat) (v : Int) : (s.storeCell a v).rb = s.rb := rfl
@[simp] theorem storeCell_status (a : Nat) (v : Int) : (s.storeCell a v).status = s.status := rfl
@[simp] theorem storeCell_faultCause (a : Nat) (v : Int) : (s.storeCell a v).faultCause = s.faultCause := rfl
@[simp] theorem storeCell_faultParam (a : Nat) (v : Int) : (s.storeCell a v).faultParam = s.faultParam := rfl
@[simp] theorem storeCell_faultValue (a : Nat) (v : Int) : (s.storeCell a v).faultValue = s.faultValue := rfl
@[simp] theorem storeCell_inq (a : Nat) (v : Int) : (s.storeCell a v).inq = s.inq := rfl
@[simp] theorem storeCell_outq (a : Nat) (v : Int) : (s.storeCell a v).outq = s.outq := rfl
@[simp] theorem storeCell_config (a : Nat) (v : Int) : (s.storeCell a v).config = s.config := rfl

/-! ### setRb -/

@[simp] theorem setRb_mem (v : Int) : (s.setRb v).mem = s.mem := rfl
@[simp] theorem setRb_memLen (v : Int) : (s.setRb v).memLen = s.memLen := rfl
@[simp] theorem setRb_pc (v : Int) : (s.setRb v).pc = s.pc := rfl
@[simp] theorem setRb_rb (v : Int) : (s.setRb v).rb = v := rfl
@[simp] theorem setRb_status (v : Int) : (s.setRb v).status = s.status := rfl
@[simp] theorem setRb_faultCause (v : Int) : (s.setRb v).faultCause = s.faultCause := rfl
@[simp] theorem setRb_faultParam (v : Int) : (s.setRb v).faultParam = s.faultParam := rfl
@[simp] theorem setRb_faultValue (v : Int) : (s.setRb v).faultValue = s.faultValue := rfl
@[simp] theorem setRb_inq (v : Int) : (s.setRb v).inq = s.inq := rfl
@[simp] theorem setRb_outq (v : Int) : (s.setRb v).outq = s.outq := rfl
@[simp] theorem setRb_config (v : Int) : (s.setRb v).config = s.config := rfl

/-! ### setInq -/

@[simp] theorem setInq_mem (q : List Int) : (s.setInq q).mem = s.mem := rfl
@[simp] theorem setInq_memLen (q : List Int) : (s.setInq q).memLen = s.memLen := rfl
@[simp] theorem setInq_pc (q : List Int) : (s.setInq q).pc = s.pc := rfl
@[simp] theorem setInq_rb (q : List Int) : (s.setInq q).rb = s.rb := rfl
@[simp] theorem setInq_status (q : List Int) : (s.setInq q).status = s.status := rfl
@[simp] theorem setInq_faultCause (q : List Int) : (s.setInq q).faultCause = s.faultCause := rfl
@[simp] theorem setInq_faultParam (q : List Int) : (s.setInq q).faultParam = s.faultParam := rfl
@[simp] theorem setInq_faultValue (q : List Int) : (s.setInq q).faultValue = s.faultValue := rfl
@[simp] theorem setInq_inq (q : List Int) : (s.setInq q).inq = q := rfl
@[simp] theorem setInq_outq (q : List Int) : (s.setInq q).outq = s.outq := rfl
@[simp] theorem setInq_config (q : List Int) : (s.setInq q).config = s.config := rfl

/-! ### setOutq -/

@[simp] theorem setOutq_mem (q : List Int) : (s.setOutq q).mem = s.mem := rfl
@[simp] theorem setOutq_memLen (q : List Int) : (s.setOutq q).memLen = s.memLen := rfl
@[simp] theorem setOutq_pc (q : List Int) : (s.setOutq q).pc = s.pc := rfl
@[simp] theorem setOutq_rb (q : List Int) : (s.setOutq q).rb = s.rb := rfl
@[simp] theorem setOutq_status (q : List Int) : (s.setOutq q).status = s.status := rfl
@[simp] theorem setOutq_faultCause (q : List Int) : (s.setOutq q).faultCause = s.faultCause := rfl
@[simp] theorem setOutq_faultParam (q : List Int) : (s.setOutq q).faultParam = s.faultParam := rfl
@[simp] theorem setOutq_faultValue (q : List Int) : (s.setOutq q).faultValue = s.faultValue := rfl
@[simp] theorem setOutq_inq (q : List Int) : (s.setOutq q).inq = s.inq := rfl
@[simp] theorem setOutq_outq (q : List Int) : (s.setOutq q).outq = q := rfl
@[simp] theorem setOutq_config (q : List Int) : (s.setOutq q).config = s.config := rfl

/-! ### goOn -/

@[simp] theorem goOn_mem (a : Nat) : (s.goOn a).mem = s.mem := rfl
@[simp] theorem goOn_memLen (a : Nat) : (s.goOn a).memLen = s.memLen := rfl
@[simp] theorem goOn_pc (a : Nat) : (s.goOn a).pc = a := rfl
@[simp] theorem goOn_rb (a : Nat) : (s.goOn a).rb = s.rb := rfl
@[simp] theorem goOn_status (a : Nat) : (s.goOn a).status = .running := rfl
@[simp] theorem goOn_faultCause (a : Nat) : (s.goOn a).faultCause = s.faultCause := rfl
@[simp] theorem goOn_faultParam (a : Nat) : (s.goOn a).faultParam = s.faultParam := rfl
@[simp] theorem goOn_faultValue (a : Nat) : (s.goOn a).faultValue = s.faultValue := rfl
@[simp] theorem goOn_inq (a : Nat) : (s.goOn a).inq = s.inq := rfl
@[simp] theorem goOn_outq (a : Nat) : (s.goOn a).outq = s.outq := rfl
@[simp] theorem goOn_config (a : Nat) : (s.goOn a).config = s.config := rfl

/-! ### pause -/

@[simp] theorem pause_mem : s.pause.mem = s.mem := rfl
@[simp] theorem pause_memLen : s.pause.memLen = s.memLen := rfl
@[simp] theorem pause_pc : s.pause.pc = s.pc := rfl
@[simp] theorem pause_rb : s.pause.rb = s.rb := rfl
@[simp] theorem pause_status : s.pause.status = .awaitingInput := rfl
@[simp] theorem pause_faultCause : s.pause.faultCause = s.faultCause := rfl
@[simp] theorem pause_faultParam : s.pause.faultParam = s.faultParam := rfl
@[simp] theorem pause_faultValue : s.pause.faultValue = s.faultValue := rfl
@[simp] theorem pause_inq : s.pause.inq = s.inq := rfl
@[simp] theorem pause_outq : s.pause.outq = s.outq := rfl
@[simp] theorem pause_config : s.pause.config = s.config := rfl

/-! ### stop -/

@[simp] theorem stop_mem : s.stop.mem = s.mem := rfl
@[simp] theorem stop_memLen : s.stop.memLen = s.memLen := rfl
@[simp] theorem stop_pc : s.stop.pc = s.pc := rfl
@[simp] theorem stop_rb : s.stop.rb = s.rb := rfl
@[simp] theorem stop_status : s.stop.status = .halted := rfl
@[simp] theorem stop_faultCause : s.stop.faultCause = s.faultCause := rfl
@[simp] theorem stop_faultParam : s.stop.faultParam = s.faultParam := rfl
@[simp] theorem stop_faultValue : s.stop.faultValue = s.faultValue := rfl
@[simp] theorem stop_inq : s.stop.inq = s.inq := rfl
@[simp] theorem stop_outq : s.stop.outq = s.outq := rfl
@[simp] theorem stop_config : s.stop.config = s.config := rfl

/-! ### raise -/

@[simp] theorem raise_mem (c : FaultCause) (k : Nat) (x : Int) : (s.raise c k x).mem = s.mem := rfl
@[simp] theorem raise_memLen (c : FaultCause) (k : Nat) (x : Int) : (s.raise c k x).memLen = s.memLen := rfl
@[simp] theorem raise_pc (c : FaultCause) (k : Nat) (x : Int) : (s.raise c k x).pc = s.pc := rfl
@[simp] theorem raise_rb (c : FaultCause) (k : Nat) (x : Int) : (s.raise c k x).rb = s.rb := rfl
@[simp] theorem raise_status (c : FaultCause) (k : Nat) (x : Int) : (s.raise c k x).status = .running := rfl
@[simp] theorem raise_faultCause (c : FaultCause) (k : Nat) (x : Int) : (s.raise c k x).faultCause = c := rfl
@[simp] theorem raise_faultParam (c : FaultCause) (k : Nat) (x : Int) : (s.raise c k x).faultParam = k := rfl
@[simp] theorem raise_faultValue (c : FaultCause) (k : Nat) (x : Int) : (s.raise c k x).faultValue = x := rfl
@[simp] theorem raise_inq (c : FaultCause) (k : Nat) (x : Int) : (s.raise c k x).inq = s.inq := rfl
@[simp] theorem raise_outq (c : FaultCause) (k : Nat) (x : Int) : (s.raise c k x).outq = s.outq := rfl
@[simp] theorem raise_config (c : FaultCause) (k : Nat) (x : Int) : (s.raise c k x).config = s.config := rfl

/-! ### awake -/

@[simp] theorem awake_mem : s.awake.mem = s.mem := rfl
@[simp] theorem awake_memLen : s.awake.memLen = s.memLen := rfl
@[simp] theorem awake_pc : s.awake.pc = s.pc := rfl
@[simp] theorem awake_rb : s.awake.rb = s.rb := rfl
@[simp] theorem awake_status : s.awake.status = if s.status = .halted then .running else s.status := rfl
@[simp] theorem awake_faultCause : s.awake.faultCause = .none := rfl
@[simp] theorem awake_faultParam : s.awake.faultParam = 0 := rfl
@[simp] theorem awake_faultValue : s.awake.faultValue = 0 := rfl
@[simp] theorem awake_inq : s.awake.inq = s.inq := rfl
@[simp] theorem awake_outq : s.awake.outq = s.outq := rfl
@[simp] theorem awake_config : s.awake.config = s.config := rfl

end Sys2Proof.Machine.State
end

