-- ==== Sys2Proof/Laws/Resolve.lean ====
section
/-! SUPPORT. What each shared operation answers, said once: memory access, the resolver, the commit, the fetch.
A state differing from `s` only in `mem_len` is written `{ s with memLen := n }`: no other part of a step before its
commit changes anything else (R111). -/

namespace Sys2Proof.Machine

variable (s : State)

/-! ## Growth of `mem_len` -/

/-- `mem_len` may go from `n` to `n'`: it does not shrink, and stays within a finite MEM_CAPACITY (R25, R51). -/
abbrev Grown (n n' : Nat) : Prop :=
  n ≤ n' ∧ (s.config.memCapacity.holds n = true → s.config.memCapacity.holds n' = true)

theorem Grown.refl (n : Nat) : Grown s n n := ⟨le_rfl, id⟩

theorem Grown.trans {s : State} {n n' n'' : Nat} (h : Grown s n n') (h' : Grown s n' n'') : Grown s n n'' :=
  ⟨h.1.trans h'.1, fun hn => h'.2 (h.2 hn)⟩

/-- One access at an admitted address. -/
theorem Grown.access {s : State} {a : Nat} (h : s.config.memCapacity.admits a = true) (n : Nat) :
    Grown s n (max n (a + 1)) := by
  refine ⟨le_max_left _ _, fun hn => ?_⟩
  revert h hn
  cases s.config.memCapacity <;> simp only [Limit.admits, Limit.holds, decide_eq_true_eq, implies_true]
  omega

/-! ## Sequencing -/

@[simp] theorem Partial.andThen_value {α : Type} (x : α) (f : α → State → StepResult) :
    (Partial.value x s).andThen f = f x s := rfl

@[simp] theorem Partial.andThen_fault {α : Type} (c : FaultCause) (k : Nat) (x : Int) (f : α → State → StepResult) :
    (Partial.fault c k x s).andThen f = .next (s.raise c k x) := rfl

@[simp] theorem Partial.bind_value {α β : Type} (x : α) (f : α → State → Partial β) :
    (Partial.value x s).bind f = f x s := rfl

@[simp] theorem Partial.bind_fault {α β : Type} (c : FaultCause) (k : Nat) (x : Int) (f : α → State → Partial β) :
    (Partial.fault c k x s : Partial α).bind f = .fault c k x s := rfl

/-! ## Terms that do not look at `mem_len` -/

@[simp] theorem param_setLen (n k : Nat) : ({ s with memLen := n } : State).param k = s.param k := rfl

@[simp] theorem cell_setLen (n : Nat) (a : Int) : ({ s with memLen := n } : State).cell a = s.cell a := rfl

theorem cell_nat (a : Nat) : s.cell (a : Int) = s.mem.read a := by simp [State.cell]

theorem cell_of_nonneg {a : Int} (h : 0 ≤ a) : s.cell a = s.mem.read a.toNat := by
  simp [State.cell, show ¬ a < 0 by omega]

/-! ## Memory access -/

/-- MemRead at a legal address (R51). -/
theorem memRead_legal {s : State} {a : Int} (h : s.legalAddr a) (k : Nat) :
    memRead k a s = .value (s.cell a) (s.grow a.toNat) := by
  have := h.1
  simp [memRead, State.cell, show ¬ a < 0 by omega, h.2]

/-- MemRead below 0 (R51). -/
theorem memRead_negative {a : Int} (h : a < 0) (k : Nat) : memRead k a s = .fault .negativeAddress k a s := by
  simp [memRead, h]

/-- MemRead beyond a finite capacity (R51). -/
theorem memRead_beyond {s : State} {a : Int} (h0 : 0 ≤ a) (h : ¬ s.legalAddr a) (k : Nat) :
    memRead k a s = .fault .capacityExceeded k a s := by
  have : s.config.memCapacity.admits a.toNat = false := by
    simp only [not_and, Bool.not_eq_true] at h; exact h h0
  simp [memRead, show ¬ a < 0 by omega, this]

/-- MemWrite at a legal address (R52). -/
theorem memWrite_legal {s : State} {a : Int} (h : s.legalAddr a) (k : Nat) (v : Int) :
    memWrite k a v s = .value () (s.storeCell a.toNat v) := by
  have := h.1
  simp [memWrite, show ¬ a < 0 by omega, h.2]

/-- A commit at a resolved destination never faults (R52): one store, then pc + len. -/
theorem storeAndGoOn_legal {s : State} {a : Int} (h : s.legalAddr a) (k : Nat) (v : Int) (len : Nat) :
    storeAndGoOn k a v len s = .next ((s.storeCell a.toNat v).goOn (s.pc + len)) := by
  simp [storeAndGoOn, memWrite_legal h, complete]

/-! ## The resolver -/

theorem paramCell_legal {s : State} {k : Nat} (h : s.paramLegal k) (n : Nat) :
    paramCell k { s with memLen := n } = .value (s.param k) { s with memLen := max n (s.pc + k + 1) } := by
  have hl : ({ s with memLen := n } : State).legalAddr ((s.pc + k : Nat) : Int) := ⟨by omega, by rw [Int.toNat_natCast]; exact h⟩
  rw [paramCell, memRead_legal hl]
  simp only [cell_nat]
  rfl

theorem paramCell_illegal {s : State} {k : Nat} (h : ¬ s.paramLegal k) (n : Nat) :
    paramCell k { s with memLen := n } = .fault .capacityExceeded k ((s.pc + k : Nat) : Int) { s with memLen := n } := by
  refine memRead_beyond (by positivity) ?_ k
  rintro ⟨-, h2⟩
  rw [Int.toNat_natCast] at h2
  exact h h2

/-- Reading the operand at an address with `mem_len = n`: the cell, or one of the two address faults. -/
theorem memRead_cases (k : Nat) (a : Int) (n : Nat) :
    (s.legalAddr a → memRead k a { s with memLen := n } = .value (s.cell a) { s with memLen := max n (a.toNat + 1) }) ∧
    (a < 0 → memRead k a { s with memLen := n } = .fault .negativeAddress k a { s with memLen := n }) ∧
    (0 ≤ a → ¬ s.legalAddr a →
      memRead k a { s with memLen := n } = .fault .capacityExceeded k a { s with memLen := n }) :=
  ⟨fun h => memRead_legal (s := { s with memLen := n }) h k, fun h => memRead_negative _ h k,
   fun h0 h => memRead_beyond (s := { s with memLen := n }) h0 h k⟩

/-- The checks of R220 on parameter cell and address pass exactly when both are legal. -/
theorem addressedFault_none (k : Nat) (a : Int) :
    addressedFault s k a = none ↔ s.paramLegal k ∧ s.legalAddr a := by
  rw [addressedFault]
  by_cases hp : s.paramLegal k
  · rw [if_neg (not_not.mpr hp)]
    by_cases h0 : a < 0
    · rw [if_pos h0]
      exact ⟨nofun, fun h => absurd h.2.1 (by omega)⟩
    · rw [if_neg h0]
      by_cases h : s.legalAddr a
      · rw [if_neg (not_not.mpr h)]; exact ⟨fun _ => ⟨hp, h⟩, fun _ => rfl⟩
      · rw [if_pos h]; exact ⟨nofun, fun h' => absurd h'.2 h⟩
  · rw [if_pos hp]; exact ⟨nofun, fun h => absurd h.1 hp⟩

/-- What reading or checking an addressed parameter answers, for either role: `ok` is the answer at a legal address. -/
theorem addressed_spec {k : Nat} {a : Int} {n : Nat} {α : Type} {r : Partial α} {ok : Partial α}
    (hbad : ¬ s.paramLegal k →
      r = .fault .capacityExceeded k ((s.pc + k : Nat) : Int) { s with memLen := n })
    (hneg : s.paramLegal k → a < 0 →
      r = .fault .negativeAddress k a { s with memLen := max n (s.pc + k + 1) })
    (hcap : s.paramLegal k → 0 ≤ a → ¬ s.legalAddr a →
      r = .fault .capacityExceeded k a { s with memLen := max n (s.pc + k + 1) })
    (hok : s.paramLegal k → s.legalAddr a → r = ok) :
    (addressedFault s k a = none → s.legalAddr a ∧ r = ok) ∧
    ∀ c j x, addressedFault s k a = some (c, j, x) →
      ∃ n', Grown s n n' ∧ r = .fault c j x { s with memLen := n' } := by
  constructor
  · intro h
    obtain ⟨hp, ha⟩ := (addressedFault_none s k a).mp h
    exact ⟨ha, hok hp ha⟩
  · intro c j x h
    rw [addressedFault] at h
    by_cases hp : s.paramLegal k
    · rw [if_neg (not_not.mpr hp)] at h
      by_cases h0 : a < 0
      · rw [if_pos h0] at h
        cases h; exact ⟨_, Grown.access hp n, hneg hp h0⟩
      · rw [if_neg h0] at h
        by_cases ha : s.legalAddr a
        · rw [if_neg (not_not.mpr ha)] at h
          cases h
        · rw [if_pos ha] at h
          cases h; exact ⟨_, Grown.access hp n, hcap hp (by omega) ha⟩
    · rw [if_pos hp] at h
      cases h; exact ⟨n, Grown.refl s n, hbad hp⟩

/-- ResolveRead in full: the operand's value, or the fault of R220. -/
theorem resolveRead_spec (k : Nat) (m : Mode) (n : Nat) :
    (readFault s k m = none →
      resolveRead k m { s with memLen := n } =
        .value (operandValue s k m) { s with memLen := lenAfterRead s k m n }) ∧
    ∀ c j x, readFault s k m = some (c, j, x) →
      ∃ n', Grown s n n' ∧ resolveRead k m { s with memLen := n } = .fault c j x { s with memLen := n' } := by
  have addressed : ∀ m', (m' = .position ∨ m' = .relative) →
      (addressedFault s k (operandAddr s k m') = none → s.legalAddr (operandAddr s k m') ∧
        resolveRead k m' { s with memLen := n } = .value (s.cell (operandAddr s k m'))
          { s with memLen := max (max n (s.pc + k + 1)) ((operandAddr s k m').toNat + 1) }) ∧
      ∀ c j x, addressedFault s k (operandAddr s k m') = some (c, j, x) →
        ∃ n', Grown s n n' ∧ resolveRead k m' { s with memLen := n } = .fault c j x { s with memLen := n' } := by
    intro m' hm
    have step : s.paramLegal k → resolveRead k m' { s with memLen := n } =
        memRead k (operandAddr s k m') { s with memLen := max n (s.pc + k + 1) } := by
      intro hp
      rcases hm with rfl | rfl <;> simp only [resolveRead, paramCell_legal hp, Partial.bind_value] <;> rfl
    obtain ⟨h1, h2, h3⟩ := memRead_cases s k (operandAddr s k m') (max n (s.pc + k + 1))
    refine addressed_spec s (fun hp => ?_) (fun hp h => (step hp).trans (h2 h))
      (fun hp h0 h => (step hp).trans (h3 h0 h)) (fun hp h => (step hp).trans (h1 h))
    rcases hm with rfl | rfl <;> simp only [resolveRead, paramCell_illegal hp, Partial.bind_fault]
  cases m with
  | position => exact ⟨fun h => ((addressed _ (.inl rfl)).1 h).2, (addressed _ (.inl rfl)).2⟩
  | relative => exact ⟨fun h => ((addressed _ (.inr rfl)).1 h).2, (addressed _ (.inr rfl)).2⟩
  | immediate =>
    by_cases hp : s.paramLegal k
    · rw [show readFault s k .immediate = none from if_neg (not_not.mpr hp)]
      exact ⟨fun _ => paramCell_legal hp n, nofun⟩
    · rw [show readFault s k .immediate = _ from if_pos hp]
      exact ⟨nofun, fun c j x h => ⟨n, Grown.refl s n, by cases h; exact paramCell_illegal hp n⟩⟩
  | undefined d => exact ⟨nofun, fun c j x h => ⟨n, Grown.refl s n, by cases h; rfl⟩⟩

/-- ResolveWrite in full: the destination address, which is legal, or the fault of R220. -/
theorem resolveWrite_spec (k : Nat) (m : Mode) (n : Nat) :
    (writeFault s k m = none →
      s.legalAddr (operandAddr s k m) ∧
      resolveWrite k m { s with memLen := n } =
        .value (operandAddr s k m) { s with memLen := lenAfterWrite s k n }) ∧
    ∀ c j x, writeFault s k m = some (c, j, x) →
      ∃ n', Grown s n n' ∧ resolveWrite k m { s with memLen := n } = .fault c j x { s with memLen := n' } := by
  have addressed : ∀ m', (m' = .position ∨ m' = .relative) →
      (addressedFault s k (operandAddr s k m') = none → s.legalAddr (operandAddr s k m') ∧
        resolveWrite k m' { s with memLen := n } =
          .value (operandAddr s k m') { s with memLen := lenAfterWrite s k n }) ∧
      ∀ c j x, addressedFault s k (operandAddr s k m') = some (c, j, x) →
        ∃ n', Grown s n n' ∧ resolveWrite k m' { s with memLen := n } = .fault c j x { s with memLen := n' } := by
    intro m' hm
    have step : s.paramLegal k → resolveWrite k m' { s with memLen := n } =
        checkDestination k (operandAddr s k m') { s with memLen := max n (s.pc + k + 1) } := by
      intro hp
      rcases hm with rfl | rfl <;> simp only [resolveWrite, paramCell_legal hp, Partial.bind_value] <;> rfl
    refine addressed_spec s (fun hp => ?_) (fun hp h => (step hp).trans (by simp [checkDestination, h]))
      (fun hp h0 h => (step hp).trans ?_) (fun hp h => (step hp).trans ?_)
    · rcases hm with rfl | rfl <;> simp only [resolveWrite, paramCell_illegal hp, Partial.bind_fault]
    · have hf : s.config.memCapacity.admits (operandAddr s k m').toNat = false := by
        simp only [not_and, Bool.not_eq_true] at h; exact h h0
      simp [checkDestination, not_lt.mpr h0, hf]
    · simp [checkDestination, not_lt.mpr h.1, h.2, lenAfterWrite]
  cases m with
  | position => exact addressed _ (.inl rfl)
  | relative => exact addressed _ (.inr rfl)
  | immediate => exact ⟨nofun, fun c j x h => ⟨n, Grown.refl s n, by cases h; rfl⟩⟩
  | undefined d => exact ⟨nofun, fun c j x h => ⟨n, Grown.refl s n, by cases h; rfl⟩⟩

/-- A read parameter is readable exactly when it raises no fault. -/
theorem readable_iff (k : Nat) (m : Mode) : Readable s k m ↔ readFault s k m = none := by
  cases m with
  | position => exact (addressedFault_none s k _).symm
  | relative => exact (addressedFault_none s k _).symm
  | immediate =>
    by_cases hp : s.paramLegal k
    · exact ⟨fun _ => if_neg (not_not.mpr hp), fun _ => hp⟩
    · refine ⟨fun h => absurd h hp, fun h => ?_⟩
      rw [readFault, if_pos hp] at h
      exact absurd h (by simp)
  | undefined d => exact ⟨False.elim, nofun⟩

/-- A write parameter is writable exactly when it raises no fault. -/
theorem writable_iff (k : Nat) (m : Mode) : Writable s k m ↔ writeFault s k m = none := by
  cases m with
  | position => exact (addressedFault_none s k _).symm
  | relative => exact (addressedFault_none s k _).symm
  | immediate => exact ⟨False.elim, nofun⟩
  | undefined d => exact ⟨False.elim, nofun⟩

/-! ## The fetch -/

/-- The fetch in full (R107, R72). -/
theorem fetch_spec :
    (∀ i, s.current = some i → fetch s = .value i (s.grow s.pc)) ∧
    (s.current = none → ∃ c x n, Grown s s.memLen n ∧ stepFault s = some (c, 0, x) ∧
      fetch s = .fault c 0 x { s with memLen := n }) := by
  by_cases hp : s.paramLegal 0
  · have hl : s.legalAddr (s.pc : Int) := ⟨by omega, by rw [Int.toNat_natCast]; exact hp⟩
    have hf : fetch s = match decode (s.mem.read s.pc) with
        | .ok i => .value i (s.grow s.pc)
        | .error _ => .fault .invalidOpcode 0 (s.mem.read s.pc) (s.grow s.pc) := by
      rw [fetch, memRead_legal hl, Partial.bind_value, cell_nat]
      rfl
    rw [hf]
    simp only [State.current, stepFault, if_pos hp, if_neg (not_not.mpr hp)]
    cases hd : decode (s.mem.read s.pc) with
    | ok j => simp
    | error e =>
      simp only [reduceCtorEq, false_implies, implies_true, true_implies, true_and]
      exact ⟨_, _, max s.memLen (s.pc + 1), Grown.access hp _, rfl, rfl⟩
  · have hb : memRead 0 (s.pc : Int) s = .fault .capacityExceeded 0 (s.pc : Int) s :=
      memRead_beyond (by omega) (fun h => hp (by have := h.2; rw [Int.toNat_natCast] at this; exact this)) 0
    simp only [State.current, stepFault, if_neg hp, if_pos hp]
    refine ⟨by simp, fun _ => ⟨_, _, s.memLen, Grown.refl s _, rfl, ?_⟩⟩
    rw [fetch, hb]
    rfl

end Sys2Proof.Machine
end

