-- ==== Sys2Proof/Laws/Exec.lean ====
section
/-! SUPPORT. What the shared parts of the instructions answer, said once; a meaning's result is one application of
these. -/

namespace Sys2Proof.Machine

variable (s : State)

/-- A first resolution and what follows it: the value, or its fault. -/
theorem andThen_spec {α : Type} {r : Partial α} {fault : Option FaultInfo} {x : α} {n n' : Nat}
    (h : (fault = none → r = .value x { s with memLen := n' }) ∧
      ∀ c j y, fault = some (c, j, y) → ∃ l, Grown s n l ∧ r = .fault c j y { s with memLen := l })
    (f : α → State → StepResult) :
    (fault = none → r.andThen f = f x { s with memLen := n' }) ∧
    ∀ c j y, fault = some (c, j, y) → ∃ l, Grown s n l ∧ r.andThen f = .next (({ s with memLen := l } : State).raise c j y) :=
  ⟨fun h0 => by rw [h.1 h0]; rfl, fun c j y h1 => by
    obtain ⟨l, hl, hr⟩ := h.2 c j y h1
    exact ⟨l, hl, by rw [hr]; rfl⟩⟩

/-- A read parameter that resolves grows `mem_len`. -/
theorem grown_lenAfterRead {k : Nat} {m : Mode} (h : readFault s k m = none) (n : Nat) :
    Grown s n (lenAfterRead s k m n) := by
  rw [← readable_iff] at h
  cases m with
  | immediate => exact .access h n
  | position => exact (Grown.access h.1 n).trans (.access h.2.2 _)
  | relative => exact (Grown.access h.1 n).trans (.access h.2.2 _)
  | undefined d => exact .refl s n

/-- A write parameter that resolves grows `mem_len`. -/
theorem grown_lenAfterWrite {k : Nat} {m : Mode} (h : writeFault s k m = none) (n : Nat) :
    Grown s n (lenAfterWrite s k n) := by
  rw [← writable_iff] at h
  cases m with
  | immediate => exact h.elim
  | position => exact .access h.1 n
  | relative => exact .access h.1 n
  | undefined d => exact h.elim

/-- The three parameters of an F4 instruction (R108): they resolve, or the first fault in R220's order is raised. -/
theorem resolveTriple_spec (m1 m2 m3 : Mode) (n : Nat) (body : Int → Int → Int → State → StepResult) :
    (tripleFault s m1 m2 m3 = none →
      s.legalAddr (operandAddr s 3 m3) ∧
      resolveTriple m1 m2 m3 { s with memLen := n } body =
        body (operandValue s 1 m1) (operandValue s 2 m2) (operandAddr s 3 m3)
          { s with memLen := lenAfterWrite s 3 (lenAfterRead s 2 m2 (lenAfterRead s 1 m1 n)) }) ∧
    ∀ c k x, tripleFault s m1 m2 m3 = some (c, k, x) →
      ∃ l, Grown s n l ∧ resolveTriple m1 m2 m3 { s with memLen := n } body =
        .next (({ s with memLen := l } : State).raise c k x) := by
  obtain ⟨a1, b1⟩ := andThen_spec s (resolveRead_spec s 1 m1 n) fun x s1 =>
    (resolveRead 2 m2 s1).andThen fun y s2 => (resolveWrite 3 m3 s2).andThen fun d s3 => body x y d s3
  obtain ⟨a2, b2⟩ := andThen_spec s (resolveRead_spec s 2 m2 (lenAfterRead s 1 m1 n)) fun y s2 =>
    (resolveWrite 3 m3 s2).andThen fun d s3 => body (operandValue s 1 m1) y d s3
  have w := resolveWrite_spec s 3 m3 (lenAfterRead s 2 m2 (lenAfterRead s 1 m1 n))
  obtain ⟨a3, b3⟩ := andThen_spec s ⟨fun h => (w.1 h).2, w.2⟩ fun d s3 =>
    body (operandValue s 1 m1) (operandValue s 2 m2) d s3
  simp only [tripleFault, Option.or_eq_none_iff]
  refine ⟨fun ⟨h1, h2, h3⟩ => ⟨(w.1 h3).1, ?_⟩, fun c k x h => ?_⟩
  · rw [resolveTriple, a1 h1, a2 h2, a3 h3]
  · rw [resolveTriple]
    cases h1 : readFault s 1 m1 with
    | some q => rw [h1, Option.some_or] at h; exact b1 c k x (h1.trans h)
    | none =>
      rw [h1, Option.none_or] at h
      rw [a1 h1]
      cases h2 : readFault s 2 m2 with
      | some q =>
        rw [h2, Option.some_or] at h
        obtain ⟨l, hl, he⟩ := b2 c k x (h2.trans h)
        exact ⟨l, (grown_lenAfterRead s h1 n).trans hl, he⟩
      | none =>
        rw [h2, Option.none_or] at h
        rw [a2 h2]
        obtain ⟨l, hl, he⟩ := b3 c k x h
        exact ⟨l, (grown_lenAfterRead s h1 n).trans ((grown_lenAfterRead s h2 _).trans hl), he⟩

/-- A taken jump (R150 to R152). -/
theorem takeJump_spec (m2 : Mode) (n : Nat) :
    (jumpFault s m2 = none →
      takeJump m2 { s with memLen := n } =
        .next (({ s with memLen := lenAfterRead s 2 m2 n } : State).goOn (operandValue s 2 m2).toNat)) ∧
    ∀ c k x, jumpFault s m2 = some (c, k, x) →
      ∃ l, Grown s n l ∧ takeJump m2 { s with memLen := n } = .next (({ s with memLen := l } : State).raise c k x) := by
  obtain ⟨a, b⟩ := andThen_spec s (resolveRead_spec s 2 m2 n) fun t s1 =>
    if t < 0 then .next (s1.raise .negativeAddress 2 t) else .next (s1.goOn t.toNat)
  simp only [jumpFault, Option.or_eq_none_iff, ite_eq_right_iff, reduceCtorEq, imp_false]
  refine ⟨fun ⟨h1, h2⟩ => by rw [takeJump, a h1, if_neg h2], fun c k x h => ?_⟩
  rw [takeJump]
  cases h1 : readFault s 2 m2 with
  | some q => rw [h1, Option.some_or] at h; exact b c k x (h1.trans h)
  | none =>
    rw [h1, Option.none_or] at h
    rw [a h1]
    split at h
    · next hn => cases h; exact ⟨_, grown_lenAfterRead s h1 n, by rw [if_pos hn]⟩
    · cases h

/-- The commit of ADD and MUL at a legal destination (R132): the result stored, or Overflow. -/
theorem storeResult_spec {s : State} {a : Int} (h : s.legalAddr a) (r : Int) :
    (InCell s.config.cellWidth r → storeResult r a s = .next ((s.storeCell a.toNat r).goOn (s.pc + 4))) ∧
    (¬ InCell s.config.cellWidth r → storeResult r a s = .next (s.raise .overflow 0 0)) :=
  ⟨fun hr => by rw [storeResult, if_pos hr, storeAndGoOn_legal h], fun hr => by rw [storeResult, if_neg hr]⟩

end Sys2Proof.Machine
end

