-- ==== Sys2Proof/Laws/Host.lean ====
section
/-! SUPPORT. What the transactions that carry a value or an index answer, said once (R182, R186, R187, R191). -/

namespace Sys2Proof.Machine

variable {s : State} {x : Int}

theorem provideInput_cell (h : InCell s.config.cellWidth x) :
    provideInput x s =
      if s.config.inDepth.admits s.inq.length then (.ok, s.setInq (s.inq ++ [x])) else (.full, s) :=
  if_neg (not_not.mpr h)

theorem provideInput_not_cell (h : ¬ InCell s.config.cellWidth x) : provideInput x s = (.notCarried, s) :=
  if_pos h

theorem poke_not_cell (h : ¬ InCell s.config.cellWidth x) (i : Int) : poke i x s = (.notCarried, s) :=
  if_pos h

/-- POKE of a cell value at a legal address stores it. -/
theorem poke_cell (h : InCell s.config.cellWidth x) {i : Int} (hi : s.legalAddr i) :
    poke i x s = (.ok, s.storeCell i.toNat x) := by
  rw [poke, if_neg (not_not.mpr h), memWrite_legal hi]

/-- PROVIDE_INPUT leaves the core alone, or appends one cell value to a queue with room for it. -/
theorem provideInput_state (x : Int) (s : State) :
    (provideInput x s).2 = s ∨
    InCell s.config.cellWidth x ∧ s.config.inDepth.admits s.inq.length = true ∧
      (provideInput x s).2 = s.setInq (s.inq ++ [x]) := by
  by_cases h : InCell s.config.cellWidth x
  · rw [provideInput_cell h]
    by_cases ha : s.config.inDepth.admits s.inq.length = true
    · exact .inr ⟨h, ha, by rw [if_pos ha]⟩
    · exact .inl (by rw [if_neg ha])
  · exact .inl (by rw [provideInput_not_cell h])

/-- PEEK leaves the core alone, or only grows `mem_len` to a legal address. -/
theorem peek_state (i : Int) (s : State) :
    (peek i s).2 = s ∨ s.legalAddr i ∧ (peek i s).2 = s.grow i.toNat := by
  by_cases h0 : i < 0
  · exact .inl (by rw [peek, memRead_negative s h0])
  · by_cases h : s.legalAddr i
    · exact .inr ⟨h, by rw [peek, memRead_legal h]⟩
    · exact .inl (by rw [peek, memRead_beyond (by omega) h])

/-- POKE leaves the core alone, or stores one cell value at a legal address. -/
theorem poke_state (i x : Int) (s : State) :
    (poke i x s).2 = s ∨
    InCell s.config.cellWidth x ∧ s.legalAddr i ∧ (poke i x s).2 = s.storeCell i.toNat x := by
  by_cases hx : InCell s.config.cellWidth x
  · by_cases h : s.legalAddr i
    · exact .inr ⟨hx, h, by rw [poke_cell hx h]⟩
    · refine .inl ?_
      rw [poke, if_neg (not_not.mpr hx)]
      by_cases h0 : i < 0
      · simp [memWrite, h0]
      · have hc : s.config.memCapacity.admits i.toNat = false := by
          simp only [not_and, Bool.not_eq_true] at h; exact h (by omega)
        simp [memWrite, h0, hc]
  · exact .inl (by rw [poke_not_cell hx])

end Sys2Proof.Machine
end

