-- ==== Sys2Proof/Laws/InputQueue.lean ====
section
/-! SUPPORT. No part of a step before IN's commit looks at the input queue (R142): resolving and fetching commute with
replacing it. -/

namespace Sys2Proof.Machine

/-- A part's answer with its state's input queue replaced. -/
def Partial.setInq {α : Type} (r : Partial α) (q : List Int) : Partial α :=
  match r with
  | .value x s => .value x (s.setInq q)
  | .fault c k x s => .fault c k x (s.setInq q)

variable (s : State) (q : List Int)

theorem memRead_setInq (k : Nat) (a : Int) : memRead k a (s.setInq q) = (memRead k a s).setInq q := by
  by_cases h : a < 0
  · simp [memRead, h, Partial.setInq]
  · cases hc : s.config.memCapacity.admits a.toNat <;> simp [memRead, h, hc, Partial.setInq]
    rfl

theorem checkDestination_setInq (k : Nat) (a : Int) :
    checkDestination k a (s.setInq q) = (checkDestination k a s).setInq q := by
  by_cases h : a < 0
  · simp [checkDestination, h, Partial.setInq]
  · cases hc : s.config.memCapacity.admits a.toNat <;> simp [checkDestination, h, hc, Partial.setInq]

/-- Parts in sequence commute when each does. -/
theorem Partial.bind_setInq {α β : Type} (r : Partial α) (f : α → State → Partial β)
    (h : ∀ x t, f x (t.setInq q) = (f x t).setInq q) : (r.setInq q).bind f = (r.bind f).setInq q := by
  cases r with
  | value x t => exact h x t
  | fault c k x t => rfl

theorem resolveRead_setInq (k : Nat) (m : Mode) : resolveRead k m (s.setInq q) = (resolveRead k m s).setInq q := by
  have p : paramCell k (s.setInq q) = (paramCell k s).setInq q := memRead_setInq s q k _
  cases m with
  | undefined d => rfl
  | immediate => exact p
  | position => simp only [resolveRead, p]; exact Partial.bind_setInq q _ _ fun _ t => memRead_setInq t q k _
  | relative => simp only [resolveRead, p]; exact Partial.bind_setInq q _ _ fun _ t => memRead_setInq t q k _

theorem resolveWrite_setInq (k : Nat) (m : Mode) : resolveWrite k m (s.setInq q) = (resolveWrite k m s).setInq q := by
  have p : paramCell k (s.setInq q) = (paramCell k s).setInq q := memRead_setInq s q k _
  cases m with
  | undefined d => rfl
  | immediate => rfl
  | position => simp only [resolveWrite, p]; exact Partial.bind_setInq q _ _ fun _ t => checkDestination_setInq t q k _
  | relative => simp only [resolveWrite, p]; exact Partial.bind_setInq q _ _ fun _ t => checkDestination_setInq t q k _

theorem fetch_setInq : fetch (s.setInq q) = (fetch s).setInq q := by
  refine (congrArg (Partial.bind · _) (memRead_setInq s q 0 _)).trans (Partial.bind_setInq q _ _ fun v t => ?_)
  cases decode v <;> rfl

end Sys2Proof.Machine
end

