-- ==== Sys2Proof/Laws/Memory.lean ====
section
/-! SUPPORT. The laws of memory: read after write, and that every operation keeps the canonical form. -/

namespace Sys2Proof.Machine.Memory

@[simp] theorem read_nil (a : Nat) : Memory.read [] a = 0 := rfl

theorem read_cons (b : Nat) (w : Int) (m : Memory) (a : Nat) :
    Memory.read ((b, w) :: m) a = if b = a then w else Memory.read m a := rfl

/-- An address below every listed one reads 0. -/
theorem read_eq_zero_of_lt {m : Memory} {a : Nat} (h : ∀ c ∈ m, a < c.1) : m.read a = 0 := by
  induction m with
  | nil => rfl
  | cons c m ih =>
    have h1 := h c (by simp)
    rw [read_cons, if_neg (by omega), ih fun d hd => h d (by simp [hd])]

/-- What is read is listed, or 0. -/
theorem read_listed (m : Memory) (a : Nat) : m.read a = 0 ∨ (a, m.read a) ∈ m := by
  induction m with
  | nil => simp
  | cons c m ih =>
    obtain ⟨b, w⟩ := c
    rw [read_cons]
    split
    · next h => subst h; simp
    · rcases ih with h | h
      · exact .inl h
      · exact .inr (by simp [h])

/-- In a canonical memory a listed cell is what is read there. -/
theorem read_of_mem {m : Memory} (h : m.wf) {c : Nat × Int} (hc : c ∈ m) : m.read c.1 = c.2 := by
  induction m with
  | nil => simp at hc
  | cons d m ih =>
    obtain ⟨b, w⟩ := d
    rw [read_cons]
    rcases List.mem_cons.mp hc with rfl | hc'
    · simp
    · have hlt := (List.pairwise_cons.mp h.1).1 c hc'
      rw [if_neg (by simp at hlt; omega)]
      exact ih ⟨(List.pairwise_cons.mp h.1).2, fun e he => h.2 e (by simp [he])⟩ hc'

theorem wf_tail {c : Nat × Int} {m : Memory} (h : Memory.wf (c :: m)) : m.wf :=
  ⟨(List.pairwise_cons.mp h.1).2, fun e he => h.2 e (by simp [he])⟩

theorem head_lt {c : Nat × Int} {m : Memory} (h : Memory.wf (c :: m)) : ∀ d ∈ m, c.1 < d.1 :=
  (List.pairwise_cons.mp h.1).1

/-- Every entry after a write is the one written or one that was there. -/
theorem mem_write {m : Memory} {a : Nat} {v : Int} {c : Nat × Int} (h : c ∈ m.write a v) :
    (c = (a, v) ∧ v ≠ 0) ∨ c ∈ m := by
  induction m with
  | nil =>
    by_cases hv : v = 0 <;> simp [Memory.write, hv] at h
    exact .inl ⟨h, hv⟩
  | cons d m ih =>
    obtain ⟨b, w⟩ := d
    simp only [Memory.write] at h
    split at h
    · split at h
      · exact .inr h
      · next hv =>
        rcases List.mem_cons.mp h with h | h
        · exact .inl ⟨h, hv⟩
        · exact .inr h
    · split at h
      · split at h
        · exact .inr (by simp [h])
        · next hv =>
          rcases List.mem_cons.mp h with h | h
          · exact .inl ⟨h, hv⟩
          · exact .inr (by simp [h])
      · rcases List.mem_cons.mp h with h | h
        · exact .inr (by simp [h])
        · rcases ih h with h | h
          · exact .inl h
          · exact .inr (by simp [h])

/-- A write keeps the canonical form. -/
theorem write_wf {m : Memory} (h : m.wf) (a : Nat) (v : Int) : (m.write a v).wf := by
  refine ⟨?_, fun c hc => ?_⟩
  · induction m with
    | nil => by_cases hv : v = 0 <;> simp [Memory.write, hv]
    | cons d m ih =>
      obtain ⟨b, w⟩ := d
      have hlt := head_lt h
      simp only [Memory.write]
      split
      · next hab =>
        split
        · exact h.1
        · refine List.pairwise_cons.mpr ⟨fun e he => ?_, h.1⟩
          rcases List.mem_cons.mp he with rfl | he
          · exact hab
          · have := hlt e he
            simp at this ⊢; omega
      · split
        · next hab =>
          split
          · exact (wf_tail h).1
          · refine List.pairwise_cons.mpr ⟨fun e he => ?_, (wf_tail h).1⟩
            have := hlt e he
            simp at this ⊢; omega
        · next h1 h2 =>
          refine List.pairwise_cons.mpr ⟨fun e he => ?_, ih (wf_tail h)⟩
          rcases mem_write he with ⟨rfl, -⟩ | he
          · simp; omega
          · exact hlt e he
  · rcases mem_write hc with ⟨rfl, hv⟩ | hc
    · exact hv
    · exact h.2 c hc

/-- Read after write: the value written there, what was there before elsewhere (R65). -/
theorem read_write {m : Memory} (h : m.wf) (a : Nat) (v : Int) (b : Nat) :
    (m.write a v).read b = if b = a then v else m.read b := by
  induction m with
  | nil =>
    by_cases hv : v = 0 <;> by_cases hb : b = a <;> simp [Memory.write, hv, hb, read_cons]
    intro hab; exact absurd hab.symm hb
  | cons d m ih =>
    obtain ⟨c, w⟩ := d
    have hlt := head_lt h
    have hz : ∀ x, x ≤ c → Memory.read m x = 0 := fun x hx =>
      read_eq_zero_of_lt fun e he => by have := hlt e he; simp at this; omega
    simp only [Memory.write]
    split
    · next hac =>
      split
      · next hv =>
        by_cases hb : b = a
        · subst hb; rw [read_cons, if_neg (by omega), hz b (by omega), if_pos rfl, hv]
        · rw [if_neg hb]
      · rw [read_cons]
        by_cases hb : b = a
        · rw [if_pos hb.symm, if_pos hb]
        · rw [if_neg (by omega), if_neg hb]
    · split
      · next hca =>
        subst hca
        split
        · next hv =>
          by_cases hb : b = c
          · rw [if_pos hb, hb, hz c le_rfl, hv]
          · rw [if_neg hb, read_cons, if_neg (by omega)]
        · rw [read_cons, read_cons]
          by_cases hb : b = c
          · rw [if_pos hb.symm, if_pos hb]
          · rw [if_neg (by omega), if_neg hb, if_neg (by omega)]
      · next h1 h2 =>
        rw [read_cons, read_cons, ih (wf_tail h)]
        by_cases hcb : c = b
        · rw [if_pos hcb, if_neg (by omega), if_pos hcb]
        · rw [if_neg hcb]
          by_cases hb : b = a
          · rw [if_pos hb, if_pos hb]
          · rw [if_neg hb, if_neg hb, if_neg hcb]

/-- Addresses of a loaded program start at its base. -/
theorem ofProgram_range {p : List Int} {base : Nat} {c : Nat × Int} (h : c ∈ Memory.ofProgram base p) :
    base ≤ c.1 ∧ c.1 < base + p.length ∧ c.2 ∈ p := by
  induction p generalizing base with
  | nil => simp [Memory.ofProgram] at h
  | cons v p ih =>
    simp only [Memory.ofProgram] at h
    have go : c ∈ Memory.ofProgram (base + 1) p → base ≤ c.1 ∧ c.1 < base + (v :: p).length ∧ c.2 ∈ v :: p := by
      intro h
      obtain ⟨h1, h2, h3⟩ := ih h
      exact ⟨by omega, by simp; omega, by simp [h3]⟩
    split at h
    · exact go h
    · rcases List.mem_cons.mp h with rfl | h
      · simp
      · exact go h

/-- A loaded program is in canonical form. -/
theorem ofProgram_wf (p : List Int) (base : Nat) : (Memory.ofProgram base p).wf := by
  induction p generalizing base with
  | nil => simp [Memory.ofProgram, Memory.wf]
  | cons v p ih =>
    simp only [Memory.ofProgram]
    split
    · exact ih _
    · next hv =>
      refine ⟨List.pairwise_cons.mpr ⟨fun e he => ?_, (ih _).1⟩, fun e he => ?_⟩
      · have := ofProgram_range he
        simp; omega
      · rcases List.mem_cons.mp he with rfl | he
        · exact hv
        · exact (ih _).2 e he

/-- A loaded program reads back, with 0 after it (R24). -/
theorem read_ofProgram (p : List Int) (base a : Nat) :
    (Memory.ofProgram base p).read (base + a) = p.getD a 0 := by
  induction p generalizing base a with
  | nil => simp [Memory.ofProgram]
  | cons v p ih =>
    have hz : (Memory.ofProgram (base + 1) p).read base = 0 :=
      read_eq_zero_of_lt fun e he => by have := ofProgram_range he; omega
    simp only [Memory.ofProgram]
    cases a with
    | zero =>
      split
      · next hv => simpa [hv] using hz
      · simp [read_cons]
    | succ a =>
      have := ih (base + 1) a
      rw [show base + 1 + a = base + (a + 1) by omega] at this
      split
      · simpa using this
      · rw [read_cons, if_neg (by omega)]
        simpa using this

end Sys2Proof.Machine.Memory
end

