-- ==== Sys2Proof/Laws/PerInstr.lean ====
section
/-! SUPPORT. Statements about every instruction as syntax, one lemma per constructor. -/

namespace Sys2Proof.Laws.EncodeFields

/-- The canonical cell of a well-formed instruction carries its operation in the low two digits and each parameter's
mode in that parameter's digit (R71, R82), and nothing above the last mode (R82). -/
def Statement (i : Instr) : Prop :=
  i.wellFormed = true →
    (encode i).toNat % 100 = i.opcode ∧
    (∀ j m, i.modes[j]? = some m → digit (encode i).toNat (j + 2) = m.toDigit) ∧
    (encode i).toNat < 10 ^ (i.paramCount + 2)

theorem of_fields (i : Instr) : Statement i := fun h =>
  ⟨(encode_fields i.opcode_lt h).1, (encode_fields i.opcode_lt h).2, by
    have h1 := modesNumber_lt h
    have h2 := i.opcode_lt
    have h3 : (10 : Nat) ^ (i.modes.length + 2) = 100 * 10 ^ i.modes.length := by rw [Nat.pow_add]; omega
    show i.opcode + 100 * modesNumber i.modes < 10 ^ (i.modes.length + 2)
    omega⟩

theorem add (m1 m2 m3 : Mode) : Statement (.add m1 m2 m3) := of_fields _
theorem mul (m1 m2 m3 : Mode) : Statement (.mul m1 m2 m3) := of_fields _
theorem inp (m1 : Mode) : Statement (.inp m1) := of_fields _
theorem out (m1 : Mode) : Statement (.out m1) := of_fields _
theorem jt (m1 m2 : Mode) : Statement (.jt m1 m2) := of_fields _
theorem jf (m1 m2 : Mode) : Statement (.jf m1 m2) := of_fields _
theorem lt (m1 m2 m3 : Mode) : Statement (.lt m1 m2 m3) := of_fields _
theorem eq (m1 m2 m3 : Mode) : Statement (.eq m1 m2 m3) := of_fields _
theorem arb (m1 : Mode) : Statement (.arb m1) := of_fields _
theorem halt : Statement .halt := of_fields _

end Sys2Proof.Laws.EncodeFields
end

