-- ==== Sys2Proof/Tests/Slice0.lean ====
section
/-! SUPPORT. Tests: expected results are the spec's (30_encoding.md, the vectors of 95_test_vectors.md, named by their
ids), and for every obligation that has hypotheses a witness that meets them, clause by clause. -/

namespace Sys2Proof.Tests

open Sys2Proof.Machine

/-! ## Small states -/

/-- LOAD of `p` on this hardware. -/
def prog (p : List Int) : State :=
  { State.reset with mem := Memory.ofProgram 0 p, memLen := p.length }

/-- LOAD of `p` with MEM_CAPACITY `n` (95, section 2.8). -/
def capped (n : Nat) (p : List Int) : State :=
  { prog p with config := { Config.hardware with memCapacity := .finite n } }

/-- OUT_DEPTH 1. -/
def shortLog : Config := { Config.hardware with outDepth := .finite 1 }

/-- IN_DEPTH 1. -/
def shortQueue : Config := { Config.hardware with inDepth := .finite 1 }

/-- 2^63 − 1, the vectors' MAX (R7). -/
def maxCell : Int := 9223372036854775807

/-- −2^63, the vectors' MIN (R7). -/
def minCell : Int := -9223372036854775808

/-! ## Well-formedness -/

theorem test_mode_below_the_undefined_digits_refused : (Instr.arb (.undefined 2)).wellFormed = false := by decide
theorem test_mode_of_two_digits_refused : (Instr.out (.undefined 10)).wellFormed = false := by decide
theorem test_ill_formed_second_mode_refused : (Instr.jt .position (.undefined 0)).wellFormed = false := by decide
theorem test_ill_formed_third_mode_refused :
    (Instr.add .position .relative (.undefined 10)).wellFormed = false := by decide
theorem test_undefined_digits_well_formed :
    (Instr.lt (.undefined 3) (.undefined 9) .immediate).wellFormed = true := by decide
theorem test_immediate_destination_illegal : (Instr.mul .immediate .immediate .immediate).legal = false := by decide
theorem test_undefined_mode_illegal : (Instr.jf .position (.undefined 3)).legal = false := by decide
theorem test_legal_modes : (Instr.eq .immediate .relative .relative).legal = true := by decide
theorem test_zero_limit_illegal : ({ Config.hardware with inDepth := .finite 0 } : Config).legal = false := by decide
theorem test_narrow_cells_illegal : ({ Config.hardware with cellWidth := 63 } : Config).legal = false := by decide
theorem test_hardware_legal : Config.hardware.legal = true := by decide

/-! ## Decoding: cells written out from R71 and R80 -/

theorem test_decode_add : decode 21101 = .ok (.add .immediate .immediate .relative) := by decide
theorem test_decode_mul : decode 1002 = .ok (.mul .position .immediate .position) := by decide
theorem test_decode_in : decode 203 = .ok (.inp .relative) := by decide
theorem test_decode_out : decode 104 = .ok (.out .immediate) := by decide
theorem test_decode_jt : decode 3105 = .ok (.jt .immediate (.undefined 3)) := by decide
theorem test_decode_jf : decode 1206 = .ok (.jf .relative .immediate) := by decide
theorem test_decode_lt : decode 20107 = .ok (.lt .immediate .position .relative) := by decide
theorem test_decode_eq : decode 1208 = .ok (.eq .relative .immediate .position) := by decide
theorem test_decode_arb : decode 209 = .ok (.arb .relative) := by decide
theorem test_decode_halt : decode 99 = .ok .halt := by decide

/-- D4, D6, D7: digits no parameter has are ignored. -/
theorem test_decode_ignored_digits :
    decode 100099 = .ok .halt ∧ decode 199 = .ok .halt ∧
      decode 100001 = .ok (.add .position .position .position) := by decide

/-- D1, D3, D5. -/
theorem test_decode_refused :
    decode 0 = .error (.unknownOperation 0) ∧ decode (-99) = .error .negativeCell ∧
      decode 10 = .error (.unknownOperation 10) := by decide

/-- R82's formula: OP + 100·M1 + 1000·M2 + 10000·M3. -/
theorem test_encode_add : encode (.add .immediate .position .relative) = 20101 := by decide

/-- Two instructions of P1 in a row. -/
theorem test_decode_cells :
    decodeCells [1001, 16, -1, 16, 1005, 16, 2] =
      .ok (.add .position .immediate .position, [16, -1, 16], [1005, 16, 2]) := by decide

theorem test_decode_table_words :
    decodeTableWord 8 1 = some (.add .position .position .position) ∧ decodeTableWord 8 99 = some .halt ∧
      decodeTableWord 64 (2 ^ 64 - 1) = none := by decide

/-- The very next step after `withFetchWord` runs the instruction, here HALT. -/
theorem test_with_fetch_word :
    stepState (State.reset.withFetchWord 8 99) = { State.reset with
      mem := [(0, 99)], memLen := 4, status := .halted } := by decide

/-! ## One step of each instruction -/

/-- M11: the destination is the source cell. -/
theorem test_add_over_its_source :
    stepState (prog [1, 0, 0, 0, 99]) = { prog [2, 0, 0, 0, 99] with pc := 4, status := .running } := by decide
/-- M1. -/
theorem test_add_overflow :
    stepState (prog [1101, maxCell, 1, 0, 99]) =
      { prog [1101, maxCell, 1, 0, 99] with faultCause := .overflow, status := .running } := by decide
/-- M6: the largest square below 2^63. -/
theorem test_mul_large :
    stepState (prog [1102, 3037000499, 3037000499, 0, 99]) =
      { prog [9223372030926249001, 3037000499, 3037000499, 0, 99] with pc := 4, status := .running } := by decide
/-- M4. -/
theorem test_mul_overflow :
    (stepState (prog [1102, minCell, -1, 0, 99])).faultCause = .overflow ∧
      (stepState (prog [1102, minCell, -1, 0, 99])).cell 0 = 1102 := by decide
/-- I8: IN overwrites its own parameter cell. -/
theorem test_in_over_its_parameter :
    stepState { prog [3, 1, 99] with inq := [7] } = { prog [3, 7, 99] with pc := 2, status := .running } := by decide
/-- I1, the step of I1b. -/
theorem test_in_pauses :
    stepState (prog [3, 0, 99]) = { prog [3, 0, 99] with status := .awaitingInput } := by decide
/-- A9: a read beyond the end gives 0 and grows mem_len. -/
theorem test_out_beyond_the_end :
    stepState (prog [4, 500, 99]) =
      { prog [4, 500, 99] with pc := 2, memLen := 501, outq := [0], status := .running } := by decide
/-- A6. -/
theorem test_out_undefined_mode :
    stepState (prog [304, 0, 99]) =
      { prog [304, 0, 99] with faultCause := .invalidMode, faultParam := 1, faultValue := 3, status := .running } := by
  decide
/-- J5: a negative condition counts as true. -/
theorem test_jt_taken : (stepState (prog [1105, -1, 4, 99, 99])).pc = 4 := by decide
/-- J3: the target's mode digit 3 is never checked. -/
theorem test_jt_not_taken :
    stepState (prog [3105, 0, 7, 99]) = { prog [3105, 0, 7, 99] with pc := 3, status := .running } := by decide
/-- J7 and J8. -/
theorem test_jf :
    (stepState (prog [1106, 0, 4, 99, 99])).pc = 4 ∧ (stepState (prog [1106, 7, 4, 99, 99])).pc = 3 := by decide
/-- J9. -/
theorem test_jf_negative_target :
    stepState (prog [1106, 0, -1]) =
      { prog [1106, 0, -1] with
        faultCause := .negativeAddress, faultParam := 2, faultValue := -1, status := .running } := by decide
/-- L4 and L5: the comparison is signed. -/
theorem test_lt :
    (stepState (prog [1107, minCell, maxCell, 0, 99])).cell 0 = 1 ∧
      (stepState (prog [1107, maxCell, minCell, 0, 99])).cell 0 = 0 := by decide
/-- L2. -/
theorem test_lt_equal_operands : (stepState (prog [1107, 5, 5, 0, 99])).cell 0 = 0 := by decide
/-- E2. -/
theorem test_eq_differs : (stepState (prog [1108, -1, 1, 0, 99])).cell 0 = 0 := by decide
/-- E3: two never-written cells are equal. -/
theorem test_eq_never_written :
    stepState (prog [8, 100, 101, 0, 99]) =
      { prog [1, 100, 101, 0, 99] with pc := 4, memLen := 102, status := .running } := by decide
/-- B3: the relative operand is read at the old rb. -/
theorem test_arb_old_base :
    stepState (prog [209, 2, 99]) = { prog [209, 2, 99] with pc := 2, rb := 99, status := .running } := by decide
/-- B2's second ARB. -/
theorem test_arb_overflow :
    stepState { prog [109, 1, 99] with rb := maxCell } =
      { prog [109, 1, 99] with rb := maxCell, faultCause := .overflow, status := .running } := by decide
/-- H1, H3. -/
theorem test_halt :
    stepState (prog [99]) = { prog [99] with status := .halted } ∧
      stepState { prog [99] with status := .halted } = { prog [99] with status := .halted } := by decide

/-! ## Faults outside an instruction, the host, the assembler -/

/-- D2. -/
theorem test_negative_opcode_cell :
    stepState (prog [-1]) =
      { prog [-1] with faultCause := .invalidOpcode, faultValue := -1, status := .running } := by decide
/-- K2: the destination is checked before anything is written. -/
theorem test_capacity_of_a_destination :
    stepState (capped 5 [1, 0, 0, 5, 99]) =
      { capped 5 [1, 0, 0, 5, 99] with
        faultCause := .capacityExceeded, faultParam := 3, faultValue := 5, status := .running } := by decide
/-- X1: the latch outlives a POKE and is cleared by LOAD. -/
theorem test_sticky_fault :
    (transactAll [.step, .poke 0 99, .step, .load [99], .step] (prog [0])).1 =
      [.fault .invalidOpcode 0 0, .ok, .fault .invalidOpcode 0 0, .ok, .status .halted] := by decide
/-- K5, K6, K8. -/
theorem test_host_errors :
    load (capped 4 []).config [0, 0, 0, 0, 0] = none ∧ load Config.hardware [maxCell + 1] = none ∧
      transact (.peek (-1)) (prog [99]) = (.negativeAddress, prog [99]) := by decide
/-- P2's ARB, JF and JMP lines, with a label, a comment and a pseudo-instruction. -/
theorem test_assemble_text :
    assembleText "loop:   JF   [rb+0], #done\n        JMP  #loop ; again\ndone:   DATA 0, -4".toList =
      some [1206, 0, 6, 1105, 1, 0, 0, -4] := by decide

/-- Blanks around `rb`, its sign and after `#` are ignored; an integer is placed whatever its size (log 14). -/
theorem test_assemble_blanks :
    assembleText "ADD [ rb + 1 ], # 5, [rb -2]\nDATA 9223372036854775808".toList =
      some [21201, 1, 5, -2, maxCell + 1] := by decide
/-- R191 (1): a value that is no cell value is not carried. -/
theorem test_not_carried :
    provideInput (maxCell + 1) (prog [99]) = (.notCarried, prog [99]) ∧
      poke 0 (minCell - 1) (prog [99]) = (.notCarried, prog [99]) := by decide

/-! ## Witnesses: states and operands that meet an obligation's hypotheses -/

theorem witness_LoadLeavesResetState :
    load Config.hardware [minCell, 0, maxCell] = some (prog [minCell, 0, maxCell]) := by decide

theorem witness_LoadAcceptsExactlyCellPrograms_accepts :
    (∀ v ∈ [minCell, maxCell], InCell (capped 2 []).config.cellWidth v) ∧
      (capped 2 []).config.memCapacity.holds [minCell, maxCell].length = true := by decide
theorem witness_LoadAcceptsExactlyCellPrograms_rejects_a_value :
    ∃ v ∈ [maxCell + 1], ¬ InCell State.reset.config.cellWidth v := by decide
theorem witness_LoadAcceptsExactlyCellPrograms_rejects_the_length :
    (capped 2 []).config.memCapacity.holds [minCell, maxCell, 0].length = false := by decide

theorem witness_DecodeEncodeRoundTrip :
    (Instr.add .immediate (.undefined 9) (.undefined 3)).wellFormed = true ∧
      [maxCell, 0, minCell].length = (Instr.add .immediate (.undefined 9) (.undefined 3)).paramCount := by decide

theorem witness_HighDigitsIgnored : decode 99903 = .ok (.inp (.undefined 9)) := by decide

theorem witness_StepRunsDecodedInstruction :
    (prog [99]).live ∧ (prog [99]).paramLegal 0 ∧ decode ((prog [99]).mem.read (prog [99]).pc) = .ok .halt := by decide

theorem witness_StepRaisesFirstFaultInPriorityOrder_fault :
    (prog [11101, maxCell, 1, 0]).live ∧ step (prog [11101, maxCell, 1, 0]) =
        .next (stepState (prog [11101, maxCell, 1, 0])) ∧
      stepFault (prog [11101, maxCell, 1, 0]) = some (.invalidMode, 3, 1) := by
  refine ⟨by decide, rfl, by decide⟩
theorem witness_StepRaisesFirstFaultInPriorityOrder_none :
    (prog [1101, maxCell, 0, 0]).live ∧ step (prog [1101, maxCell, 0, 0]) =
        .next (stepState (prog [1101, maxCell, 0, 0])) ∧ stepFault (prog [1101, maxCell, 0, 0]) = none := by
  refine ⟨by decide, rfl, by decide⟩

theorem witness_FaultLatchIsSticky :
    (stepState (prog [0])).faulted ∧ (Transaction.poke 0 99).notLoad = true := by decide

theorem witness_HaltedCoreStaysAsItIs : (stepState (prog [99])).finished := by decide

theorem witness_StatusAfterLiveStep :
    (prog [3, 0]).live ∧ step (prog [3, 0]) = .next (stepState (prog [3, 0])) ∧
      (stepState (prog [3, 0])).status = .awaitingInput := by
  refine ⟨by decide, rfl, by decide⟩
theorem witness_StatusAfterLiveStep_halted :
    (prog [99]).live ∧ step (prog [99]) = .next (stepState (prog [99])) ∧
      (stepState (prog [99])).status = .halted := by
  refine ⟨by decide, rfl, by decide⟩

theorem witness_StepWriteMap_memory :
    step (prog [1, 0, 0, 0]) = .next (stepState (prog [1, 0, 0, 0])) ∧
      (stepState (prog [1, 0, 0, 0])).mem ≠ (prog [1, 0, 0, 0]).mem := ⟨rfl, by decide⟩
theorem witness_StepWriteMap_rb :
    step (prog [109, 1]) = .next (stepState (prog [109, 1])) ∧
      (stepState (prog [109, 1])).rb ≠ (prog [109, 1]).rb := ⟨rfl, by decide⟩
theorem witness_StepWriteMap_inq :
    step { prog [3, 0] with inq := [5] } = .next (stepState { prog [3, 0] with inq := [5] }) ∧
      (stepState { prog [3, 0] with inq := [5] }).inq ≠ [5] := ⟨rfl, by decide⟩
theorem witness_StepWriteMap_outq :
    step (prog [104, 1]) = .next (stepState (prog [104, 1])) ∧
      (stepState (prog [104, 1])).outq ≠ (prog [104, 1]).outq := ⟨rfl, by decide⟩
theorem witness_StepWriteMap_pc_kept :
    step (prog [0]) = .next (stepState (prog [0])) ∧ (stepState (prog [0])).faulted ∧
      (stepState (prog [3, 0])).status = .awaitingInput ∧ (stepState (prog [99])).status = .halted :=
  ⟨rfl, by decide⟩
/-- A taken jump, and an instruction that goes on. -/
theorem witness_StepWriteMap_pc :
    step (prog [1105, 1, 7]) = .next (stepState (prog [1105, 1, 7])) ∧ (stepState (prog [1105, 1, 7])).pc ≠ 0 ∧
      takenTarget (prog [1105, 1, 7]) (.jt .immediate .immediate) = some .immediate ∧
      (stepState (prog [1105, 0, 7])).pc ≠ 0 ∧
      takenTarget (prog [1105, 0, 7]) (.jt .immediate .immediate) = none := ⟨rfl, by decide⟩
theorem witness_StepWriteMap_status_and_latch :
    step (prog [-1]) = .next (stepState (prog [-1])) ∧ (stepState (prog [-1])).status ≠ (prog [-1]).status ∧
      ((stepState (prog [-1])).faultCause, (stepState (prog [-1])).faultParam, (stepState (prog [-1])).faultValue) ≠
        ((prog [-1]).faultCause, (prog [-1]).faultParam, (prog [-1]).faultValue) := ⟨rfl, by decide⟩

/-- A storing form: cells 1 and 0 beside the destination 2. -/
theorem witness_InstructionFrame_store :
    (prog [3, 2]).mem.wf ∧
      exec (.inp .position) { prog [3, 2] with inq := [5] } = .next (stepState { prog [3, 2] with inq := [5] }) ∧
      execFault { prog [3, 2] with inq := [5] } (.inp .position) = none ∧
      ∀ k m, destination (.inp .position) = some (k, m) → (1 : Int) ≠ operandAddr (prog [3, 2]) k m := by
  refine ⟨by decide, rfl, by decide, fun k m h => ?_⟩
  cases h
  decide
/-- A form that stores nothing. -/
theorem witness_InstructionFrame_no_store :
    (prog [4, 0]).mem.wf ∧ exec (.out .position) (prog [4, 0]) = .next (stepState (prog [4, 0])) ∧
      execFault (prog [4, 0]) (.out .position) = none ∧ destination (.out .position) = none :=
  ⟨by decide, rfl, by decide, rfl⟩

theorem witness_CompletedStoreReadsBack :
    (prog [1, 0, 0, 0]).mem.wf ∧ destination (.add .position .position .position) = some (3, .position) ∧
      execFault (prog [1, 0, 0, 0]) (.add .position .position .position) = none ∧
      storedValue (prog [1, 0, 0, 0]) (.add .position .position .position) = some 2 := by decide
theorem witness_CompletedStoreReadsBack_in :
    ({ prog [203, 4] with inq := [5, 6] } : State).mem.wf ∧ destination (.inp .relative) = some (1, .relative) ∧
      execFault { prog [203, 4] with inq := [5, 6] } (.inp .relative) = none ∧
      storedValue { prog [203, 4] with inq := [5, 6] } (.inp .relative) = some 5 := by decide

/-- The sum MAX is the greatest that is stored. -/
theorem witness_AddStoresExactSum :
    Readable (prog [1101, maxCell, 0, 0]) 1 .immediate ∧ Readable (prog [1101, maxCell, 0, 0]) 2 .immediate ∧
      Writable (prog [1101, maxCell, 0, 0]) 3 .position ∧
      InCell 64 (operandValue (prog [1101, maxCell, 0, 0]) 1 .immediate +
        operandValue (prog [1101, maxCell, 0, 0]) 2 .immediate) := by decide
theorem witness_AddStoresExactSum_fault :
    execFault (prog [1101, maxCell, 1, 0]) (.add .immediate .immediate .position) = some (.overflow, 0, 0) := by decide

/-- The product MIN is the least that is stored. -/
theorem witness_MulStoresExactProduct :
    Readable (prog [1102, minCell, 1, 0]) 1 .immediate ∧ Readable (prog [1102, minCell, 1, 0]) 2 .immediate ∧
      Writable (prog [1102, minCell, 1, 0]) 3 .position ∧
      InCell 64 (operandValue (prog [1102, minCell, 1, 0]) 1 .immediate *
        operandValue (prog [1102, minCell, 1, 0]) 2 .immediate) := by decide
theorem witness_MulStoresExactProduct_fault :
    execFault (prog [1102, minCell, -1, 0]) (.mul .immediate .immediate .position) = some (.overflow, 0, 0) := by decide

theorem witness_LtStoresTruth :
    Readable (prog [1107, 5, 5, 0]) 1 .immediate ∧ Readable (prog [1107, 5, 5, 0]) 2 .immediate ∧
      Writable (prog [1107, 5, 5, 0]) 3 .position := by decide
theorem witness_LtStoresTruth_fault :
    execFault (prog [7, -1, 5, 0]) (.lt .position .position .position) = some (.negativeAddress, 1, -1) := by decide

theorem witness_EqStoresTruth :
    Readable (prog [8, 0, 0, 0]) 1 .position ∧ Readable (prog [8, 0, 0, 0]) 2 .position ∧
      Writable (prog [8, 0, 0, 0]) 3 .position := by decide
/-- K4: the first address beyond the capacity. -/
theorem witness_EqStoresTruth_fault :
    execFault (capped 4 [8, 0, 0, 4]) (.eq .position .position .position) = some (.capacityExceeded, 3, 4) := by decide

theorem witness_InTakesFrontOrPauses_front :
    Writable { capped 2 [3, 1] with inq := [5] } 1 .position ∧ { capped 2 [3, 1] with inq := [5] }.inq = 5 :: [] := by
  decide
theorem witness_InTakesFrontOrPauses_pause : Writable (prog [3, 0]) 1 .position ∧ (prog [3, 0]).inq = [] := by decide
/-- I7. -/
theorem witness_InTakesFrontOrPauses_fault :
    execFault (prog [203, -1]) (.inp .relative) = some (.negativeAddress, 1, -1) := by decide

/-- The last place of the log. -/
theorem witness_OutAppendsOperand :
    Readable { prog [104, 1] with config := shortLog } 1 .immediate ∧
      shortLog.outDepth.admits ({ prog [104, 1] with config := shortLog } : State).outq.length = true := by decide
theorem witness_OutAppendsOperand_fault :
    execFault { prog [104, 2] with config := shortLog, outq := [1] } (.out .immediate) =
      some (.outputFull, 1, 2) := by decide

theorem witness_JtJumpsOnNonZero_not_taken :
    Readable (prog [3105, 0, 7]) 1 .immediate ∧ operandValue (prog [3105, 0, 7]) 1 .immediate = 0 := by decide
/-- Target 0, the least that does not fault. -/
theorem witness_JtJumpsOnNonZero_taken :
    Readable (prog [1105, 1, 0]) 1 .immediate ∧ operandValue (prog [1105, 1, 0]) 1 .immediate ≠ 0 ∧
      Readable (prog [1105, 1, 0]) 2 .immediate ∧ 0 ≤ operandValue (prog [1105, 1, 0]) 2 .immediate := by decide
/-- J4. -/
theorem witness_JtJumpsOnNonZero_fault :
    execFault (prog [3105, 1, 7]) (.jt .immediate (.undefined 3)) = some (.invalidMode, 2, 3) := by decide

theorem witness_JfJumpsOnZero_not_taken :
    Readable (prog [1106, -1, 7]) 1 .immediate ∧ operandValue (prog [1106, -1, 7]) 1 .immediate ≠ 0 := by decide
theorem witness_JfJumpsOnZero_taken :
    Readable (prog [1106, 0, 0]) 1 .immediate ∧ operandValue (prog [1106, 0, 0]) 1 .immediate = 0 ∧
      Readable (prog [1106, 0, 0]) 2 .immediate ∧ 0 ≤ operandValue (prog [1106, 0, 0]) 2 .immediate := by decide
theorem witness_JfJumpsOnZero_fault :
    execFault (prog [1106, 0, -1]) (.jf .immediate .immediate) = some (.negativeAddress, 2, -1) := by decide

theorem witness_ArbAddsToRelativeBase :
    Readable { prog [109, 1] with rb := maxCell - 1 } 1 .immediate ∧
      InCell 64 (({ prog [109, 1] with rb := maxCell - 1 } : State).rb +
        operandValue { prog [109, 1] with rb := maxCell - 1 } 1 .immediate) := by decide
theorem witness_ArbAddsToRelativeBase_fault :
    execFault { prog [109, 1] with rb := maxCell } (.arb .immediate) = some (.overflow, 0, 0) := by decide

theorem witness_OutOfRangeResultRaisesOverflow_add :
    Readable (prog [1101, maxCell, 1, 0]) 1 .immediate ∧ Readable (prog [1101, maxCell, 1, 0]) 2 .immediate ∧
      Writable (prog [1101, maxCell, 1, 0]) 3 .position ∧
      ¬ InCell 64 (operandValue (prog [1101, maxCell, 1, 0]) 1 .immediate +
        operandValue (prog [1101, maxCell, 1, 0]) 2 .immediate) := by decide
theorem witness_OutOfRangeResultRaisesOverflow_mul :
    Readable (prog [1102, minCell, -1, 0]) 1 .immediate ∧ Readable (prog [1102, minCell, -1, 0]) 2 .immediate ∧
      Writable (prog [1102, minCell, -1, 0]) 3 .position ∧
      ¬ InCell 64 (operandValue (prog [1102, minCell, -1, 0]) 1 .immediate *
        operandValue (prog [1102, minCell, -1, 0]) 2 .immediate) := by decide
theorem witness_OutOfRangeResultRaisesOverflow_arb :
    Readable { prog [109, -1] with rb := minCell } 1 .immediate ∧
      ¬ InCell 64 (({ prog [109, -1] with rb := minCell } : State).rb +
        operandValue { prog [109, -1] with rb := minCell } 1 .immediate) := by decide

theorem witness_ImmediateDestinationFaults :
    Readable (prog [11101, 1, 1, 0]) 1 .immediate ∧ Readable (prog [11101, 1, 1, 0]) 2 .immediate ∧
      Instr.add .immediate .immediate .immediate ∈ [Instr.add .immediate .immediate .immediate,
        .mul .immediate .immediate .immediate, .lt .immediate .immediate .immediate,
        .eq .immediate .immediate .immediate] := by decide

/-- The greatest legal modes, in a state where the instruction faults otherwise. -/
theorem witness_LegalInstructionRaisesNoInvalidMode :
    (Instr.add .relative .immediate .relative).legal = true ∧ (prog [21201, -1, 0, 0]).faultCause ≠ .invalidMode ∧
      exec (.add .relative .immediate .relative) (prog [21201, -1, 0, 0]) =
        .next (stepState (prog [21201, -1, 0, 0])) := ⟨by decide, by decide, rfl⟩

/-- Target −1, the greatest that faults, for JT and for JF. -/
theorem witness_NegativeJumpTargetFaults :
    Readable (prog [1105, 1, -1]) 1 .immediate ∧ Readable (prog [1105, 1, -1]) 2 .immediate ∧
      operandValue (prog [1105, 1, -1]) 2 .immediate < 0 ∧ operandValue (prog [1105, 1, -1]) 1 .immediate ≠ 0 := by decide
theorem witness_NegativeJumpTargetFaults_jf :
    Readable (prog [1106, 0, -1]) 1 .immediate ∧ Readable (prog [1106, 0, -1]) 2 .immediate ∧
      operandValue (prog [1106, 0, -1]) 2 .immediate < 0 ∧ operandValue (prog [1106, 0, -1]) 1 .immediate = 0 := by decide

theorem witness_FullOutputLogFaults :
    Readable { prog [104, 2] with config := shortLog, outq := [1] } 1 .immediate ∧
      shortLog.outDepth.admits ({ prog [104, 2] with config := shortLog, outq := [1] } : State).outq.length = false := by
  decide

theorem witness_InvalidOpcodeAtFetch :
    (prog [0]).live ∧ (prog [0]).paramLegal 0 ∧
      decode ((prog [0]).mem.read (prog [0]).pc) = .error (.unknownOperation 0) := by decide

/-- The last address of a capacity, the first beyond it, and −1: the clauses of MemRead and MemWrite, PEEK and POKE. -/
theorem witness_address_clauses :
    InCell (capped 2 [7]).config.cellWidth minCell ∧ (capped 2 [7]).legalAddr 1 ∧ (capped 2 [7]).mem.wf ∧ (0 : Int) ≤ 2 ∧
      (capped 2 [7]).config.memCapacity.admits (2 : Int).toNat = false ∧ ¬ (capped 2 [7]).legalAddr 2 ∧
      (-1 : Int) < 0 ∧ ¬ (capped 2 [7]).legalAddr (-1) := by decide

theorem witness_MemoryIsDeterminedByReads :
    Memory.wf [(3, 5)] ∧ Memory.wf (Memory.write [] 3 5) ∧
      ∀ a, Memory.read [(3, 5)] a = Memory.read (Memory.write [] 3 5) a := ⟨by decide, by decide, fun _ => rfl⟩

theorem witness_MemLenNeverDecreases : (Transaction.peek 9).notLoad = true := by decide

theorem reset_inv : State.reset.Inv := by constructor <;> decide
theorem reset_bounded : State.reset.Bounded := by constructor <;> decide

theorem witness_StepKeepsInvariant : State.reset.Inv ∧ step State.reset = .next (stepState State.reset) :=
  ⟨reset_inv, rfl⟩

theorem prog_inv : (prog [1, 0, 0, 0]).Inv := by constructor <;> decide
theorem witness_StepKeepsAddressBounds :
    (prog [1, 0, 0, 0]).Inv ∧ (prog [1, 0, 0, 0]).Bounded ∧
      step (prog [1, 0, 0, 0]) = .next (stepState (prog [1, 0, 0, 0])) :=
  ⟨prog_inv, by constructor <;> decide, rfl⟩

theorem witness_TransactionKeepsInvariant : (prog [1, 0, 0, 0]).Inv := prog_inv

/-- The values next to the range, one for each transaction that passes any. -/
theorem witness_OnlyCellValuesAreCarried :
    ¬ (Transaction.load [0, maxCell + 1]).passesCells State.reset.config.cellWidth ∧
      ¬ (Transaction.provideInput (minCell - 1)).passesCells State.reset.config.cellWidth ∧
      ¬ (Transaction.poke 0 (maxCell + 1)).passesCells State.reset.config.cellWidth := by decide

theorem witness_ProvideInputAppends :
    InCell shortQueue.cellWidth maxCell ∧
      shortQueue.inDepth.admits ({ State.reset with config := shortQueue } : State).inq.length = true ∧
      shortQueue.inDepth.admits ({ State.reset with config := shortQueue, inq := [1] } : State).inq.length = false := by
  decide

theorem witness_PokedOpcodeIsExecutedNext :
    InCell (prog [0]).config.cellWidth 99 ∧ (prog [0]).mem.wf ∧ (prog [0]).live ∧ (prog [0]).paramLegal 0 ∧ decode 99 = .ok .halt := by decide

theorem witness_RunStopsAtFirstStop :
    Response.status .halted ≠ .stillRunning ∧
      run 2 (prog [104, 1, 99]) = (.status .halted, (run 2 (prog [104, 1, 99])).2) := by decide

theorem witness_SelfJumpNeverResponds_jt :
    (prog [1105, 1, 0]).live ∧ (prog [1105, 1, 0]).current = some (.jt .immediate .immediate) ∧
      operandValue (prog [1105, 1, 0]) 1 .immediate ≠ 0 ∧ Readable (prog [1105, 1, 0]) 1 .immediate ∧
      Readable (prog [1105, 1, 0]) 2 .immediate ∧
      operandValue (prog [1105, 1, 0]) 2 .immediate = (prog [1105, 1, 0]).pc := by decide
/-- JF with a Position condition and a Relative target. -/
theorem witness_SelfJumpNeverResponds_jf :
    (prog [2006, 3, 4]).live ∧ (prog [2006, 3, 4]).current = some (.jf .position .relative) ∧
      operandValue (prog [2006, 3, 4]) 1 .position = 0 ∧ Readable (prog [2006, 3, 4]) 1 .position ∧
      Readable (prog [2006, 3, 4]) 2 .relative ∧
      operandValue (prog [2006, 3, 4]) 2 .relative = (prog [2006, 3, 4]).pc := by decide

theorem witness_OutputLogConservesValues :
    ∀ t ∈ [Transaction.run 2, .drainOutput, .step], t.notLoad = true := by decide

theorem witness_StepIgnoresLaterInput :
    step { prog [3, 0] with inq := [5] } = .next (stepState { prog [3, 0] with inq := [5] }) ∧
      (stepState { prog [3, 0] with inq := [5] }).status ≠ .awaitingInput := ⟨rfl, by decide⟩

theorem witness_SuspensionFidelity :
    run 1 (prog [3, 0, 99]) = (.status .awaitingInput, (run 1 (prog [3, 0, 99])).2) ∧ 1 ≤ 1 := by decide

theorem witness_CoresShareNothing : (0 : Nat) ≠ 1 := by decide

theorem witness_ChainFeedsOutputsInOrder :
    (0 : Nat) ≠ 1 ∧ ({ cores := [{ prog [99] with outq := [minCell, maxCell] }, prog [3, 0, 99]] } : System).cores[0]? =
        some { prog [99] with outq := [minCell, maxCell] } ∧
      ({ cores := [{ prog [99] with outq := [minCell, maxCell] }, prog [3, 0, 99]] } : System).cores[1]? = some (prog [3, 0, 99]) ∧
      (prog [3, 0, 99]).config.inDepth = .unbounded ∧
      ∀ x ∈ ({ prog [99] with outq := [minCell, maxCell] } : State).outq, InCell 64 x := by decide

theorem witness_PseudoInstructionsEncode :
    (AsmOperand.relativeMinus (.int 2)).cell [] = some (-2) ∧
      (AsmOperand.position (.label ['b'])).cell [(['b'], 7)] = some 7 := by decide

/-- NOP, JMP, MOV, CLR, NEG and NEG of MIN. -/
theorem witness_PseudoInstructionEffects_jumps :
    (prog [1105, 0, 0]).paramLegal 1 ∧ (prog [1105, 0, 0]).param 1 = 0 ∧ (prog [1105, 1, 0]).param 1 = 1 ∧
      Readable (prog [1105, 1, 0]) 2 .immediate ∧ 0 ≤ operandValue (prog [1105, 1, 0]) 2 .immediate := by decide
theorem witness_PseudoInstructionEffects_mov :
    Readable (prog [1101, maxCell, 0, 5]) 1 .immediate ∧ (prog [1101, maxCell, 0, 5]).paramLegal 2 ∧
      (prog [1101, maxCell, 0, 5]).param 2 = 0 ∧ Writable (prog [1101, maxCell, 0, 5]) 3 .position ∧
      InCell 64 (operandValue (prog [1101, maxCell, 0, 5]) 1 .immediate) := by decide
theorem witness_PseudoInstructionEffects_clr :
    (prog [1101, 0, 0, 5]).paramLegal 1 ∧ (prog [1101, 0, 0, 5]).paramLegal 2 ∧ (prog [1101, 0, 0, 5]).param 1 = 0 ∧
      (prog [1101, 0, 0, 5]).param 2 = 0 ∧ Writable (prog [1101, 0, 0, 5]) 3 .position := by decide
theorem witness_PseudoInstructionEffects_neg :
    Readable (prog [1102, maxCell, -1, 5]) 1 .immediate ∧ (prog [1102, maxCell, -1, 5]).param 2 = -1 ∧
      Writable (prog [1102, maxCell, -1, 5]) 3 .position ∧
      InCell 64 (-operandValue (prog [1102, maxCell, -1, 5]) 1 .immediate) ∧
      operandValue (prog [1102, minCell, -1, 5]) 1 .immediate = cellMin 64 := by decide

theorem witness_AssembledStatementsAreConsecutive :
    assemble ([{ label := none, stmt := some .nop }] ++ { label := some ['a'], stmt := some .halt } :: []) =
      some [1105, 0, 0, 99] := by decide

end Sys2Proof.Tests
end

section
/-! PROOFS. What an instruction answers, said once for every instruction: the completed state, or the fault entry of
R220's first fault; and what a step can do. -/

namespace Sys2Proof.Machine

/-! ## Answers with a fault to raise or none -/

/-- The result `r` of a part of a step that has run with `mem_len = n`: `t` if there is no fault to raise, else the
fault's entry in `s`, with only `mem_len` grown (R111, R218). -/
def Answers (s : State) (n : Nat) (fault : Option FaultInfo) (r : StepResult) (t : State) : Prop :=
  (fault = none → r = .next t) ∧
  ∀ c k x, fault = some (c, k, x) → ∃ l, Grown s n l ∧ r = .next (({ s with memLen := l } : State).raise c k x)

variable {s t : State} {n n' : Nat}

theorem Answers.done : Answers s n none (.next t) t := ⟨fun _ => rfl, nofun⟩

theorem Answers.raised (c : FaultCause) (k : Nat) (x : Int) :
    Answers s n (some (c, k, x)) (.next (({ s with memLen := n } : State).raise c k x)) t :=
  ⟨nofun, fun _ _ _ h => by cases h; exact ⟨n, .refl s n, rfl⟩⟩

/-- A part that answers, followed by another where it raised nothing: the first fault of the two is raised (R220). -/
theorem Answers.or {f₁ f₂ : Option FaultInfo} {r r' : StepResult}
    (ok : f₁ = none → Grown s n n' ∧ r = r' ∧ Answers s n' f₂ r' t)
    (bad : ∀ c k x, f₁ = some (c, k, x) →
      ∃ l, Grown s n l ∧ r = .next (({ s with memLen := l } : State).raise c k x)) :
    Answers s n (f₁.or f₂) r t := by
  cases f₁ with
  | some f => exact ⟨nofun, fun c k x h => bad c k x h⟩
  | none =>
    obtain ⟨hn, rfl, hnone, hsome⟩ := ok rfl
    refine ⟨hnone, fun c k x h => ?_⟩
    obtain ⟨l, hl, hr⟩ := hsome c k x h
    exact ⟨l, hn.trans hl, hr⟩

/-! ## What no fault says -/

theorem overflowFault_eq_none {r : Int} : overflowFault s r = none ↔ InCell s.config.cellWidth r := by
  simp only [overflowFault, ite_eq_left_iff, reduceCtorEq, imp_false, not_not]

/-- A destination with no fault to raise is legal (R101). -/
theorem writeFault_legalAddr {k : Nat} {m : Mode} (h : writeFault s k m = none) : s.legalAddr (operandAddr s k m) :=
  ((resolveWrite_spec s k m 0).1 h).1

theorem tripleFault_legalAddr {m1 m2 m3 : Mode} (h : tripleFault s m1 m2 m3 = none) :
    s.legalAddr (operandAddr s 3 m3) := by
  simp only [tripleFault, Option.or_eq_none_iff] at h
  exact writeFault_legalAddr h.2.2

theorem grown_lenAfterTriple {m1 m2 m3 : Mode} (h : tripleFault s m1 m2 m3 = none) :
    Grown s s.memLen (lenAfterTriple s m1 m2) := by
  simp only [tripleFault, Option.or_eq_none_iff] at h
  obtain ⟨h1, h2, h3⟩ := h
  exact (grown_lenAfterRead s h1 _).trans ((grown_lenAfterRead s h2 _).trans (grown_lenAfterWrite s h3 _))

/-! ## The parts -/

/-- A read parameter and what follows it. -/
theorem answers_read (k : Nat) (m : Mode) {f₂ : Option FaultInfo} {f : Int → State → StepResult}
    (h : Answers s (lenAfterRead s k m n) f₂
      (f (operandValue s k m) { s with memLen := lenAfterRead s k m n }) t) :
    Answers s n ((readFault s k m).or f₂) ((resolveRead k m { s with memLen := n }).andThen f) t := by
  obtain ⟨ok, bad⟩ := andThen_spec s (resolveRead_spec s k m n) f
  exact .or (fun h0 => ⟨grown_lenAfterRead s h0 n, ok h0, h⟩) bad

/-- The three parameters of an F4 instruction and what follows them at a legal destination. -/
theorem answers_triple (m1 m2 m3 : Mode) {f₂ : Option FaultInfo} {body : Int → Int → Int → State → StepResult}
    (h : s.legalAddr (operandAddr s 3 m3) → Answers s (lenAfterTriple s m1 m2) f₂
      (body (operandValue s 1 m1) (operandValue s 2 m2) (operandAddr s 3 m3)
        { s with memLen := lenAfterTriple s m1 m2 }) t) :
    Answers s s.memLen ((tripleFault s m1 m2 m3).or f₂) (resolveTriple m1 m2 m3 s body) t := by
  obtain ⟨ok, bad⟩ := resolveTriple_spec s m1 m2 m3 s.memLen body
  exact .or (fun h0 => ⟨grown_lenAfterTriple h0, (ok h0).2, h (ok h0).1⟩) bad

/-- A commit at a legal destination. -/
theorem answers_store {a : Int} (h : s.legalAddr a) (k : Nat) (v : Int) (len : Nat) :
    Answers s n none (storeAndGoOn k a v len { s with memLen := n }) (s.afterStore a v len n) := by
  rw [storeAndGoOn_legal (s := { s with memLen := n }) h]
  exact .done

/-- The end of ADD and MUL (R132). -/
theorem answers_storeResult {a : Int} (h : s.legalAddr a) (r : Int) :
    Answers s n (overflowFault s r) (storeResult r a { s with memLen := n }) (s.afterStore a r 4 n) := by
  by_cases hr : InCell s.config.cellWidth r
  · rw [overflowFault, if_pos hr, storeResult, if_pos hr]
    exact answers_store h 3 r 4
  · rw [overflowFault, if_neg hr, storeResult, if_neg hr]
    exact .raised _ _ _

/-- Where a conditional jump that raises nothing leaves the core, `n` being `mem_len` after its condition was read. -/
def State.afterJump (s : State) (taken : Bool) (m2 : Mode) (n : Nat) : State :=
  if taken then ({ s with memLen := lenAfterRead s 2 m2 n } : State).goOn (operandValue s 2 m2).toNat
  else ({ s with memLen := n } : State).goOn (s.pc + 3)

/-- The second half of JT and JF (R150 to R152). -/
theorem answers_jump (taken : Bool) (m2 : Mode) :
    Answers s n (if taken then jumpFault s m2 else none)
      (if taken then takeJump m2 { s with memLen := n } else complete 3 { s with memLen := n })
      (s.afterJump taken m2 n) := by
  cases taken with
  | true => exact takeJump_spec s m2 n
  | false => exact .done

/-! ## The instructions -/

/-- The state an instruction leaves that has no fault to raise: it completes, or it is IN and pauses. -/
def State.afterInstr (s : State) : Instr → State
  | .add m1 m2 m3 =>
    s.afterStore (operandAddr s 3 m3) (operandValue s 1 m1 + operandValue s 2 m2) 4 (lenAfterTriple s m1 m2)
  | .mul m1 m2 m3 =>
    s.afterStore (operandAddr s 3 m3) (operandValue s 1 m1 * operandValue s 2 m2) 4 (lenAfterTriple s m1 m2)
  | .lt m1 m2 m3 =>
    s.afterStore (operandAddr s 3 m3) (lessThan (operandValue s 1 m1) (operandValue s 2 m2)) 4
      (lenAfterTriple s m1 m2)
  | .eq m1 m2 m3 =>
    s.afterStore (operandAddr s 3 m3) (equalTo (operandValue s 1 m1) (operandValue s 2 m2)) 4
      (lenAfterTriple s m1 m2)
  | .inp m1 =>
    match s.inq with
    | [] => ({ s with memLen := lenAfterWrite s 1 s.memLen } : State).pause
    | x :: rest => (s.setInq rest).afterStore (operandAddr s 1 m1) x 2 (lenAfterWrite s 1 s.memLen)
  | .out m1 =>
    (({ s with memLen := lenAfterRead s 1 m1 s.memLen } : State).setOutq (s.outq ++ [operandValue s 1 m1])).goOn
      (s.pc + 2)
  | .jt m1 m2 => s.afterJump (isTrue (operandValue s 1 m1)) m2 (lenAfterRead s 1 m1 s.memLen)
  | .jf m1 m2 => s.afterJump (!isTrue (operandValue s 1 m1)) m2 (lenAfterRead s 1 m1 s.memLen)
  | .arb m1 =>
    (({ s with memLen := lenAfterRead s 1 m1 s.memLen } : State).setRb (s.rb + operandValue s 1 m1)).goOn (s.pc + 2)
  | .halt => s.stop

theorem execIn_answers (m1 : Mode) :
    Answers s s.memLen (writeFault s 1 m1) (execIn m1 s) (s.afterInstr (.inp m1)) := by
  have w := resolveWrite_spec s 1 m1 s.memLen
  obtain ⟨ok, bad⟩ := andThen_spec s ⟨fun h => (w.1 h).2, w.2⟩ fun d t =>
    match t.inq with
    | [] => .next t.pause
    | x :: rest => storeAndGoOn 1 d x 2 (t.setInq rest)
  refine ⟨fun h0 => (ok h0).trans ?_, bad⟩
  cases hq : s.inq with
  | nil => simp [State.afterInstr, hq]
  | cons x rest =>
    simp only [State.afterInstr, hq]
    exact (answers_store (s := s.setInq rest) (w.1 h0).1 1 x 2).1 rfl

theorem execOut_answers (m1 : Mode) :
    Answers s s.memLen (execFault s (.out m1)) (execOut m1 s) (s.afterInstr (.out m1)) := by
  refine answers_read 1 m1 ?_
  by_cases hq : s.config.outDepth.admits s.outq.length = true
  · simp only [hq, if_true]
    exact .done
  · simp only [hq]
    exact .raised _ _ _

theorem execArb_answers (m1 : Mode) :
    Answers s s.memLen (execFault s (.arb m1)) (execArb m1 s) (s.afterInstr (.arb m1)) := by
  refine answers_read 1 m1 ?_
  by_cases hr : InCell s.config.cellWidth (s.rb + operandValue s 1 m1)
  · rw [overflowFault, if_pos hr, if_pos hr]
    exact .done
  · rw [overflowFault, if_neg hr, if_neg hr]
    exact .raised _ _ _

theorem execJt_answers (m1 m2 : Mode) :
    Answers s s.memLen (execFault s (.jt m1 m2)) (execJt m1 m2 s) (s.afterInstr (.jt m1 m2)) := by
  refine answers_read 1 m1 ?_
  simpa [State.afterInstr, isTrue] using answers_jump (isTrue (operandValue s 1 m1)) m2

theorem execJf_answers (m1 m2 : Mode) :
    Answers s s.memLen (execFault s (.jf m1 m2)) (execJf m1 m2 s) (s.afterInstr (.jf m1 m2)) := by
  refine answers_read 1 m1 ?_
  simpa [State.afterInstr, isTrue] using answers_jump (!isTrue (operandValue s 1 m1)) m2

/-- Every instruction leaves `afterInstr`, or raises the first fault in the order of R220. -/
theorem exec_answers (i : Instr) (s : State) : Answers s s.memLen (execFault s i) (exec i s) (s.afterInstr i) := by
  cases i with
  | add m1 m2 m3 => exact answers_triple m1 m2 m3 fun h => answers_storeResult h _
  | mul m1 m2 m3 => exact answers_triple m1 m2 m3 fun h => answers_storeResult h _
  | lt m1 m2 m3 =>
    rw [execFault, ← Option.or_none (o := tripleFault s m1 m2 m3)]
    exact answers_triple m1 m2 m3 fun h => answers_store h 3 _ 4
  | eq m1 m2 m3 =>
    rw [execFault, ← Option.or_none (o := tripleFault s m1 m2 m3)]
    exact answers_triple m1 m2 m3 fun h => answers_store h 3 _ 4
  | inp m1 => exact execIn_answers m1
  | out m1 => exact execOut_answers m1
  | jt m1 m2 => exact execJt_answers m1 m2
  | jf m1 m2 => exact execJf_answers m1 m2
  | arb m1 => exact execArb_answers m1
  | halt => exact .done

/-! ## The step -/

/-- The fault of an instruction does not depend on `mem_len`. -/
@[simp] theorem execFault_grow (s : State) (a : Nat) (i : Instr) : execFault (s.grow a) i = execFault s i := by
  cases i <;> rfl

theorem current_eq_some {i : Instr} :
    s.current = some i ↔ s.paramLegal 0 ∧ decode (s.mem.read s.pc) = .ok i := by
  rw [State.current]
  by_cases hp : s.paramLegal 0
  · rw [if_pos hp, and_iff_right hp]
    cases decode (s.mem.read s.pc) <;> simp
  · simp [hp]

theorem stepFault_of_current {i : Instr} (h : s.current = some i) : stepFault s = execFault s i := by
  obtain ⟨hp, hd⟩ := current_eq_some.mp h
  rw [stepFault, if_neg (not_not.mpr hp), hd]

/-- The fetch's fault (R107, R211, R215): the opcode cell is out of reach, or no instruction. -/
theorem stepFault_of_no_current (h : s.current = none) :
    stepFault s = some (.capacityExceeded, 0, (s.pc : Int)) ∨
    stepFault s = some (.invalidOpcode, 0, s.mem.read s.pc) := by
  rw [State.current] at h
  rw [stepFault]
  by_cases hp : s.paramLegal 0
  · rw [if_pos hp] at h
    rw [if_neg (not_not.mpr hp)]
    cases hd : decode (s.mem.read s.pc) with
    | ok i => simp [hd] at h
    | error e => exact .inr rfl
  · exact .inl (if_pos hp)

/-- What a step can do (R106, R172, R221): nothing, on a core that is not live; else enter its first fault, or run the
current instruction after the fetch has grown `mem_len`. -/
theorem step_cases (h : step s = .next t) :
    (¬ s.live ∧ t = s) ∨
    (s.live ∧ ∃ c k x l, stepFault s = some (c, k, x) ∧ Grown s s.memLen l ∧
      t = ({ s with memLen := l } : State).raise c k x) ∨
    (s.live ∧ ∃ i, s.current = some i ∧ execFault s i = none ∧ t = (s.grow s.pc).afterInstr i) := by
  by_cases hl : s.live
  · rw [step, if_pos hl.1, if_neg hl.2] at h
    refine .inr ?_
    cases hc : s.current with
    | none =>
      obtain ⟨c, x, l, hg, hf, he⟩ := (fetch_spec s).2 hc
      rw [he, Partial.andThen_fault] at h
      cases h
      exact .inl ⟨hl, c, 0, x, l, hf, hg, rfl⟩
    | some i =>
      rw [(fetch_spec s).1 i hc, Partial.andThen_value] at h
      obtain ⟨hnone, hsome⟩ := exec_answers i (s.grow s.pc)
      rw [execFault_grow] at hnone hsome
      cases hf : execFault s i with
      | none =>
        rw [hnone hf] at h
        cases h
        exact .inr ⟨hl, i, rfl, hf, rfl⟩
      | some f =>
        obtain ⟨c, k, x⟩ := f
        obtain ⟨l, hg, he⟩ := hsome c k x hf
        rw [he] at h
        cases h
        have fetched : Grown s s.memLen (s.grow s.pc).memLen := .access (current_eq_some.mp hc).1 _
        exact .inl ⟨hl, c, k, x, l, (stepFault_of_current hc).trans hf, fetched.trans hg, rfl⟩
  · refine .inl ⟨hl, ?_⟩
    by_cases hc : s.faultCause = .none
    · have hs : s.status = .halted := not_not.mp fun hs => hl ⟨hc, hs⟩
      rw [step, if_pos hc, if_pos hs] at h
      cases h; rfl
    · rw [step, if_neg hc] at h
      cases h; rfl

end Sys2Proof.Machine
end

section
/-! PROOFS. What a fault records (R210 to R216): one inversion lemma for every fault an instruction raises. -/

namespace Sys2Proof.Machine

/-- What the latch records of a fault that an instruction with the modes `ms` raises: the table of R210, said of the
state before the step. -/
inductive RecordsFault (s : State) (ms : List Mode) : FaultInfo → Prop
  /-- A parameter cell is out of reach (R215). -/
  | paramCell {k : Nat} (hk : k ≤ 3) : RecordsFault s ms (.capacityExceeded, k, (s.pc + k : Nat))
  /-- An operand's address is below 0 or out of reach (R213, R215). -/
  | address {c : FaultCause} {k : Nat} (m : Mode) (hc : c = .negativeAddress ∨ c = .capacityExceeded) (hk : k ≤ 3) :
    RecordsFault s ms (c, k, operandAddr s k m)
  /-- A parameter's mode is not one its role may have (R212). -/
  | mode {k : Nat} {m : Mode} (hm : m ∈ ms) (hk : k ≤ 3) : RecordsFault s ms (.invalidMode, k, m.toDigit)
  /-- An exact result is no cell value (R214). -/
  | overflow : RecordsFault s ms (.overflow, 0, 0)
  /-- The output log is full (R216). -/
  | outputFull (m : Mode) : RecordsFault s ms (.outputFull, 1, operandValue s 1 m)
  /-- A taken jump's target is negative (R152, R213). -/
  | target (m : Mode) : RecordsFault s ms (.negativeAddress, 2, operandValue s 2 m)

variable {s : State} {ms : List Mode} {k : Nat} {m : Mode} {f : FaultInfo}

theorem RecordsFault.cause_ne_none (h : RecordsFault s ms f) : f.1 ≠ .none := by
  cases h with
  | address m hc hk => rcases hc with rfl | rfl <;> exact nofun
  | _ => exact nofun

theorem RecordsFault.param_le (h : RecordsFault s ms f) : f.2.1 ≤ 3 := by
  cases h with
  | paramCell hk => exact hk
  | address m hc hk => exact hk
  | mode hm hk => exact hk
  | _ => simp

theorem addressedFault_records (hk : k ≤ 3) (h : addressedFault s k (operandAddr s k m) = some f) :
    RecordsFault s ms f := by
  rw [addressedFault] at h
  split_ifs at h
  · cases h; exact .address m (.inl rfl) hk
  · cases h; exact .address m (.inr rfl) hk
  · cases h; exact .paramCell hk

theorem readFault_records (hk : k ≤ 3) (hm : m ∈ ms) (h : readFault s k m = some f) : RecordsFault s ms f := by
  cases m with
  | position => exact addressedFault_records hk h
  | relative => exact addressedFault_records hk h
  | immediate =>
    rw [readFault] at h
    split_ifs at h
    cases h; exact .paramCell hk
  | undefined d => cases h; exact .mode hm hk

theorem writeFault_records (hk : k ≤ 3) (hm : m ∈ ms) (h : writeFault s k m = some f) : RecordsFault s ms f := by
  cases m with
  | position => exact addressedFault_records hk h
  | relative => exact addressedFault_records hk h
  | immediate => cases h; exact .mode hm hk
  | undefined d => cases h; exact .mode hm hk

/-- Of two faults in order, each recorded, the first is recorded. -/
theorem or_records {f₁ f₂ : Option FaultInfo} (h₁ : f₁ = some f → RecordsFault s ms f)
    (h₂ : f₂ = some f → RecordsFault s ms f) (h : f₁.or f₂ = some f) : RecordsFault s ms f := by
  cases f₁ with
  | some g => exact h₁ h
  | none => exact h₂ h

theorem tripleFault_records {m1 m2 m3 : Mode} (h : tripleFault s m1 m2 m3 = some f) :
    RecordsFault s [m1, m2, m3] f :=
  or_records (readFault_records (by decide) (by simp))
    (or_records (readFault_records (by decide) (by simp)) (writeFault_records (by decide) (by simp))) h

theorem overflowFault_records {r : Int} (h : overflowFault s r = some f) : RecordsFault s ms f := by
  rw [overflowFault] at h
  split_ifs at h
  cases h; exact .overflow

theorem jumpFault_records (hm : m ∈ ms) (h : jumpFault s m = some f) : RecordsFault s ms f := by
  refine or_records (readFault_records (by decide) hm) (fun ht => ?_) h
  split_ifs at ht
  cases ht; exact .target m

/-- Every fault an instruction raises is one of R210's table. -/
theorem execFault_records {i : Instr} (h : execFault s i = some f) : RecordsFault s i.modes f := by
  cases i with
  | add m1 m2 m3 => exact or_records tripleFault_records overflowFault_records h
  | mul m1 m2 m3 => exact or_records tripleFault_records overflowFault_records h
  | lt m1 m2 m3 => exact tripleFault_records h
  | eq m1 m2 m3 => exact tripleFault_records h
  | inp m1 => exact writeFault_records (by decide) (List.mem_singleton_self m1) h
  | out m1 =>
    refine or_records (readFault_records (by decide) (List.mem_singleton_self m1)) (fun hq => ?_) h
    split_ifs at hq
    cases hq; exact .outputFull m1
  | jt m1 m2 =>
    refine or_records (readFault_records (by decide) (by simp [Instr.modes])) (fun hj => ?_) h
    split_ifs at hj
    exact jumpFault_records (by simp [Instr.modes]) hj
  | jf m1 m2 =>
    refine or_records (readFault_records (by decide) (by simp [Instr.modes])) (fun hj => ?_) h
    split_ifs at hj
    exact jumpFault_records (by simp [Instr.modes]) hj
  | arb m1 => exact or_records (readFault_records (by decide) (List.mem_singleton_self m1)) overflowFault_records h
  | halt => cases h

/-- What a step's fault records: the fetch's two faults, or one of the current instruction's. -/
theorem stepFault_cases (h : stepFault s = some f) :
    f = (.capacityExceeded, 0, (s.pc : Int)) ∨ f = (.invalidOpcode, 0, s.mem.read s.pc) ∨
    ∃ i, s.current = some i ∧ RecordsFault s i.modes f := by
  cases hc : s.current with
  | none =>
    rcases stepFault_of_no_current hc with he | he <;> rw [he] at h <;> cases h
    · exact .inl rfl
    · exact .inr (.inl rfl)
  | some i => exact .inr (.inr ⟨i, rfl, execFault_records ((stepFault_of_current hc).symm.trans h)⟩)

/-- A fault raised has a cause, and a parameter number 0..3 (R210). -/
theorem stepFault_cause_param {c : FaultCause} {x : Int} (h : stepFault s = some (c, k, x)) : c ≠ .none ∧ k ≤ 3 := by
  rcases stepFault_cases h with he | he | ⟨i, -, hr⟩
  · cases he; exact ⟨nofun, by decide⟩
  · cases he; exact ⟨nofun, by decide⟩
  · exact ⟨hr.cause_ne_none, hr.param_le⟩

end Sys2Proof.Machine
end

section
/-! PROOFS. Every update of the state keeps the machine's invariant, and so does every step. -/

namespace Sys2Proof.Machine

variable {s : State}

namespace State.Inv

/-! ## Values under the invariant -/

/-- Every cell of a core, listed or not, holds a cell value (R7, R53). -/
theorem read_cell (h : s.Inv) (a : Nat) : InCell s.config.cellWidth (s.mem.read a) := by
  rcases Memory.read_listed s.mem a with h0 | hm
  · rw [h0]; exact zero_inCell _
  · exact h.mem_cells _ hm

theorem cell_cell (h : s.Inv) (a : Int) : InCell s.config.cellWidth (s.cell a) := by
  rw [State.cell]
  split
  · exact zero_inCell _
  · exact h.read_cell _

/-- An operand is a cell value (R100). -/
theorem operandValue_cell (h : s.Inv) (k : Nat) (m : Mode) : InCell s.config.cellWidth (operandValue s k m) := by
  cases m with
  | position => exact h.cell_cell _
  | relative => exact h.cell_cell _
  | immediate => exact h.read_cell _
  | undefined d => exact zero_inCell _

theorem width_le (h : s.Inv) : 64 ≤ s.config.cellWidth := by
  have := h.config_legal
  simp only [Config.legal, Bool.and_eq_true, decide_eq_true_eq] at this
  omega

/-! ## The updates -/

theorem setLen (h : s.Inv) {n : Nat} (hn : Grown s s.memLen n) : ({ s with memLen := n } : State).Inv :=
  { h with mem_below := fun c hc => (h.mem_below c hc).trans_le hn.1, len_legal := hn.2 h.len_legal }

theorem storeCell (h : s.Inv) {a : Nat} (ha : s.config.memCapacity.admits a = true) {v : Int}
    (hv : InCell s.config.cellWidth v) : (s.storeCell a v).Inv :=
  have grown := Grown.access ha s.memLen
  { h with
    mem_wf := Memory.write_wf h.mem_wf a v
    mem_cells := fun c hc => by
      rcases Memory.mem_write hc with ⟨rfl, -⟩ | hc
      · exact hv
      · exact h.mem_cells c hc
    mem_legal := fun c hc => by
      rcases Memory.mem_write hc with ⟨rfl, -⟩ | hc
      · exact ha
      · exact h.mem_legal c hc
    mem_below := fun c hc => by
      rcases Memory.mem_write hc with ⟨rfl, -⟩ | hc
      · exact (Nat.lt_succ_self a).trans_le (le_max_right s.memLen _)
      · exact (h.mem_below c hc).trans_le grown.1
    len_legal := grown.2 h.len_legal }

theorem setRb (h : s.Inv) {v : Int} (hv : InCell s.config.cellWidth v) : (s.setRb v).Inv := { h with rb_cell := hv }

theorem setInq (h : s.Inv) {q : List Int} (hc : ∀ x ∈ q, InCell s.config.cellWidth x)
    (hd : s.config.inDepth.holds q.length = true) : (s.setInq q).Inv := { h with inq_cells := hc, inq_depth := hd }

theorem setOutq (h : s.Inv) {q : List Int} (hc : ∀ x ∈ q, InCell s.config.cellWidth x)
    (hd : s.config.outDepth.holds q.length = true) : (s.setOutq q).Inv := { h with outq_cells := hc, outq_depth := hd }

theorem goOn (h : s.Inv) (a : Nat) : (s.goOn a).Inv := { h with latch_status := fun _ => rfl }

theorem pause (h : s.Inv) (hf : s.faultCause = .none) : s.pause.Inv := { h with latch_status := fun hn => absurd hf hn }

theorem stop (h : s.Inv) (hf : s.faultCause = .none) : s.stop.Inv := { h with latch_status := fun hn => absurd hf hn }

theorem raise (h : s.Inv) {c : FaultCause} {k : Nat} (hc : c ≠ .none) (hk : k ≤ 3) (x : Int) : (s.raise c k x).Inv :=
  { h with latch_clear := fun hn => absurd hn hc, latch_status := fun _ => rfl, param_range := hk }

/-- The front of the input queue is a cell value, and taking it keeps the invariant (R29, R140). -/
theorem takeFront (h : s.Inv) {x : Int} {rest : List Int} (hq : s.inq = x :: rest) :
    InCell s.config.cellWidth x ∧ (s.setInq rest).Inv := by
  have cells := h.inq_cells
  have depth := h.inq_depth
  rw [hq] at cells depth
  refine ⟨cells x (by simp), h.setInq (fun y hy => cells y (by simp [hy])) ?_⟩
  revert depth
  cases s.config.inDepth <;> simp [Limit.holds]
  omega

/-- A value appended to a log with room for it (R30, R141). -/
theorem append (h : s.Inv) {x : Int} (hx : InCell s.config.cellWidth x)
    (hd : s.config.outDepth.admits s.outq.length = true) : (s.setOutq (s.outq ++ [x])).Inv := by
  refine h.setOutq (fun y hy => ?_) ?_
  · rcases List.mem_append.mp hy with hy | hy
    · exact h.outq_cells y hy
    · rw [List.mem_singleton.mp hy]; exact hx
  · revert hd
    cases s.config.outDepth <;> simp [Limit.holds, Limit.admits]

/-! ## The ends of an instruction -/

theorem afterStore (h : s.Inv) {n : Nat} (hn : Grown s s.memLen n) {a : Int} (ha : s.legalAddr a) {v : Int}
    (hv : InCell s.config.cellWidth v) (len : Nat) : (s.afterStore a v len n).Inv :=
  ((h.setLen hn).storeCell ha.2 hv).goOn (s.pc + len)

/-- A store at the destination of an F4 instruction whose parameters resolve. -/
theorem afterTriple (h : s.Inv) {m1 m2 m3 : Mode} (hf : tripleFault s m1 m2 m3 = none) {v : Int}
    (hv : InCell s.config.cellWidth v) :
    (s.afterStore (operandAddr s 3 m3) v 4 (lenAfterTriple s m1 m2)).Inv :=
  h.afterStore (grown_lenAfterTriple hf) (tripleFault_legalAddr hf) hv 4

theorem afterJump (h : s.Inv) {n : Nat} (hn : Grown s s.memLen n) {taken : Bool} {m2 : Mode}
    (hf : taken = true → jumpFault s m2 = none) : (s.afterJump taken m2 n).Inv := by
  cases taken with
  | true =>
    have hr : readFault s 2 m2 = none := (Option.or_eq_none_iff.mp (hf rfl)).1
    exact (h.setLen (hn.trans (grown_lenAfterRead s hr n))).goOn _
  | false => exact (h.setLen hn).goOn _

/-- An instruction with no fault to raise, on a core with none latched, keeps the invariant. -/
theorem afterInstr (h : s.Inv) (hl : s.faultCause = .none) {i : Instr} (hf : execFault s i = none) :
    (s.afterInstr i).Inv := by
  cases i with
  | add m1 m2 m3 =>
    obtain ⟨ht, ho⟩ := Option.or_eq_none_iff.mp hf
    exact h.afterTriple ht (overflowFault_eq_none.mp ho)
  | mul m1 m2 m3 =>
    obtain ⟨ht, ho⟩ := Option.or_eq_none_iff.mp hf
    exact h.afterTriple ht (overflowFault_eq_none.mp ho)
  | lt m1 m2 m3 => exact h.afterTriple hf (truth_inCell h.width_le _)
  | eq m1 m2 m3 => exact h.afterTriple hf (truth_inCell h.width_le _)
  | inp m1 =>
    have hn := grown_lenAfterWrite s hf s.memLen
    simp only [State.afterInstr]
    split
    · exact (h.setLen hn).pause hl
    · next x rest hq =>
      obtain ⟨hx, hrest⟩ := h.takeFront hq
      exact hrest.afterStore hn (writeFault_legalAddr hf) hx 2
  | out m1 =>
    obtain ⟨hr, hq⟩ := Option.or_eq_none_iff.mp hf
    have room : s.config.outDepth.admits s.outq.length = true := by
      by_contra hn
      rw [if_neg hn] at hq
      cases hq
    exact ((h.setLen (grown_lenAfterRead s hr _)).append (h.operandValue_cell 1 m1) room).goOn _
  | jt m1 m2 =>
    obtain ⟨hr, hj⟩ := Option.or_eq_none_iff.mp hf
    exact h.afterJump (grown_lenAfterRead s hr _) fun ht => by rwa [if_pos (by simpa [isTrue] using ht)] at hj
  | jf m1 m2 =>
    obtain ⟨hr, hj⟩ := Option.or_eq_none_iff.mp hf
    exact h.afterJump (grown_lenAfterRead s hr _) fun ht => by rwa [if_pos (by simpa [isTrue] using ht)] at hj
  | arb m1 =>
    obtain ⟨hr, ho⟩ := Option.or_eq_none_iff.mp hf
    exact ((h.setLen (grown_lenAfterRead s hr _)).setRb (overflowFault_eq_none.mp ho)).goOn _
  | halt => exact h.stop hl

/-- The fetch of a reachable opcode cell keeps the invariant. -/
theorem fetched (h : s.Inv) {i : Instr} (hc : s.current = some i) : (s.grow s.pc).Inv :=
  h.setLen (.access (current_eq_some.mp hc).1 _)

end State.Inv

/-- Settles O39: a step does nothing, enters a fault, or runs an instruction that has no fault to raise, and each of
the three keeps the invariant. -/
theorem stepKeepsInvariant : Obligations.StepKeepsInvariant := by
  intro s t h hs
  rcases step_cases hs with ⟨-, rfl⟩ | ⟨-, c, k, x, l, hf, hg, rfl⟩ | ⟨hl, i, hc, hf, rfl⟩
  · exact h
  · obtain ⟨hcause, hk⟩ := stepFault_cause_param hf
    exact (h.setLen hg).raise hcause hk x
  · exact (h.fetched hc).afterInstr hl.1 ((execFault_grow s s.pc i).trans hf)

end Sys2Proof.Machine
end

section
/-! PROOFS. The widths R8 and R213 derive: the values a core computes addresses from are cell values, and a core that
executes has its pc at a listed cell. -/

namespace Sys2Proof

/-- An opcode cell decodes to a well-formed instruction (R71). -/
theorem decode_wellFormed {v : Int} {i : Instr} (h : decode v = .ok i) : i.wellFormed = true := by
  rw [decode] at h
  split at h
  · cases h
  · unfold decodeNat at h
    split at h <;> cases h <;> simp [Instr.wellFormed, Instr.modes, modeAt_wellFormed]

namespace Machine

variable {s : State}

/-- A core that executes has its pc at a cell in use: a never-written cell reads 0, which is no instruction (R53, R72). -/
theorem pc_listed {i : Instr} (h : s.current = some i) : (s.pc, s.mem.read s.pc) ∈ s.mem := by
  obtain ⟨-, hd⟩ := current_eq_some.mp h
  rcases Memory.read_listed s.mem s.pc with h0 | hm
  · rw [h0] at hd
    cases hd
  · exact hm

namespace State.Inv

theorem pow_width_le (h : s.Inv) : 2 ^ 64 ≤ 2 ^ s.config.cellWidth := Nat.pow_le_pow_right (by decide) h.width_le

/-- A cell value is at most half of 2^W away from 0 (R7). -/
theorem cell_bounds (h : s.Inv) {x : Int} (hx : InCell s.config.cellWidth x) :
    -((2 ^ s.config.cellWidth : Nat) : Int) ≤ 2 * x ∧ 2 * x + 2 ≤ ((2 ^ s.config.cellWidth : Nat) : Int) := by
  have half : 2 ^ s.config.cellWidth = 2 * 2 ^ (s.config.cellWidth - 1) := by
    rw [← Nat.pow_succ', Nat.succ_eq_add_one, Nat.sub_add_cancel (by have := h.width_le; omega)]
  obtain ⟨hlo, hhi⟩ := hx
  simp only [cellMin, cellMax] at hlo hhi
  rw [half]
  generalize 2 ^ (s.config.cellWidth - 1) = z at *
  omega

/-- An operand's address is a sum of at most two cell values (R8, R102, R104). -/
theorem operandAddr_bounds (h : s.Inv) (k : Nat) (m : Mode) :
    -((2 ^ s.config.cellWidth : Nat) : Int) ≤ operandAddr s k m ∧
      operandAddr s k m + 2 ≤ ((2 ^ s.config.cellWidth : Nat) : Int) := by
  have hw := h.pow_width_le
  have hp := h.cell_bounds (h.read_cell (s.pc + k))
  have hr := h.cell_bounds h.rb_cell
  have sum : operandAddr s k m = s.mem.read (s.pc + k) ∨ operandAddr s k m = s.rb + s.mem.read (s.pc + k) := by
    cases m with
    | relative => exact .inr rfl
    | _ => exact .inl rfl
  generalize 2 ^ s.config.cellWidth = z at *
  omega

/-- The pc of a core that executes leaves room for the longest instruction (R8, R110). -/
theorem pc_add_le (h : s.Inv) (hb : s.Bounded) {i : Instr} (hc : s.current = some i) {len : Nat} (hl : len ≤ 4) :
    s.pc + len ≤ 2 ^ s.config.cellWidth + 2 := by
  have hw := h.pow_width_le
  have hpc : s.pc ≤ 2 ^ s.config.cellWidth - 2 := hb.mem_reach _ (pc_listed hc)
  omega

end State.Inv

namespace State.Bounded

/-! ## The updates -/

theorem setLen (h : s.Bounded) (n : Nat) : ({ s with memLen := n } : State).Bounded := { h with }

theorem setRb (h : s.Bounded) (v : Int) : (s.setRb v).Bounded := { h with }

theorem setInq (h : s.Bounded) (q : List Int) : (s.setInq q).Bounded := { h with }

theorem setOutq (h : s.Bounded) (q : List Int) : (s.setOutq q).Bounded := { h with }

theorem pause (h : s.Bounded) : s.pause.Bounded := { h with }

theorem stop (h : s.Bounded) : s.stop.Bounded := { h with }

theorem goOn (h : s.Bounded) {a : Nat} (ha : a ≤ 2 ^ s.config.cellWidth + 2) : (s.goOn a).Bounded :=
  { h with pc_bound := ha }

theorem storeCell (h : s.Bounded) {a : Nat} (ha : a ≤ 2 ^ s.config.cellWidth - 2) (v : Int) :
    (s.storeCell a v).Bounded := by
  refine { h with mem_reach := fun c hc => ?_ }
  rcases Memory.mem_write hc with ⟨rfl, -⟩ | hc
  · exact ha
  · exact h.mem_reach c hc

theorem raise (h : s.Bounded) (c : FaultCause) (k : Nat) {x : Int}
    (hx : -((2 ^ s.config.cellWidth : Nat) : Int) ≤ x ∧ x ≤ ((2 ^ s.config.cellWidth + 2 : Nat) : Int)) :
    (s.raise c k x).Bounded :=
  { h with value_lower := hx.1, value_upper := hx.2 }

/-! ## The ends of an instruction -/

/-- A store at a parameter's address by an instruction of `len` cells. -/
theorem afterStore (h : s.Bounded) (hi : s.Inv) {i : Instr} (hc : s.current = some i) (k : Nat) (m : Mode) (v : Int)
    {len : Nat} (hl : len ≤ 4) (n : Nat) : (s.afterStore (operandAddr s k m) v len n).Bounded := by
  have reach : (operandAddr s k m).toNat ≤ 2 ^ s.config.cellWidth - 2 := by
    have ha := (hi.operandAddr_bounds k m).2
    omega
  exact ((h.setLen n).storeCell reach v).goOn (hi.pc_add_le h hc hl)

theorem afterJump (h : s.Bounded) (hi : s.Inv) {i : Instr} (hc : s.current = some i) (taken : Bool) (m2 : Mode)
    (n : Nat) : (s.afterJump taken m2 n).Bounded := by
  cases taken with
  | true =>
    have hw := hi.pow_width_le
    have target : (operandValue s 2 m2).toNat ≤ 2 ^ s.config.cellWidth + 2 := by
      have hv := (hi.cell_bounds (hi.operandValue_cell 2 m2)).2
      omega
    exact (h.setLen _).goOn target
  | false => exact (h.setLen _).goOn (hi.pc_add_le h hc (by decide))

/-- Running the current instruction keeps the bounds. -/
theorem afterInstr (h : s.Bounded) (hi : s.Inv) {i : Instr} (hc : s.current = some i) : (s.afterInstr i).Bounded := by
  cases i with
  | add m1 m2 m3 => exact h.afterStore hi hc 3 m3 _ (by decide) _
  | mul m1 m2 m3 => exact h.afterStore hi hc 3 m3 _ (by decide) _
  | lt m1 m2 m3 => exact h.afterStore hi hc 3 m3 _ (by decide) _
  | eq m1 m2 m3 => exact h.afterStore hi hc 3 m3 _ (by decide) _
  | inp m1 =>
    simp only [State.afterInstr]
    split
    · exact (h.setLen _).pause
    · next x rest hq =>
      exact (h.afterStore hi hc 1 m1 x (len := 2) (by decide) (lenAfterWrite s 1 s.memLen)).setInq rest
  | out m1 => exact ((h.setLen _).setOutq _).goOn (hi.pc_add_le h hc (len := 2) (by decide))
  | jt m1 m2 => exact h.afterJump hi hc _ m2 _
  | jf m1 m2 => exact h.afterJump hi hc _ m2 _
  | arb m1 => exact ((h.setLen _).setRb _).goOn (hi.pc_add_le h hc (len := 2) (by decide))
  | halt => exact h.stop

/-! ## The recorded value -/

/-- What a step's fault records lies within −2^W .. 2^W + 2 (R28, R213). -/
theorem stepFault_value (h : s.Bounded) (hi : s.Inv) {c : FaultCause} {k : Nat} {x : Int}
    (hf : stepFault s = some (c, k, x)) :
    -((2 ^ s.config.cellWidth : Nat) : Int) ≤ x ∧ x ≤ ((2 ^ s.config.cellWidth + 2 : Nat) : Int) := by
  have hw := hi.pow_width_le
  have of_cell : ∀ {y : Int}, InCell s.config.cellWidth y →
      -((2 ^ s.config.cellWidth : Nat) : Int) ≤ y ∧ y ≤ ((2 ^ s.config.cellWidth + 2 : Nat) : Int) := by
    intro y hy
    have hb := hi.cell_bounds hy
    omega
  rcases stepFault_cases hf with he | he | ⟨i, hc, hr⟩
  · have hpc := h.pc_bound
    cases he
    omega
  · cases he
    exact of_cell (hi.read_cell s.pc)
  · cases hr with
    | paramCell hk =>
      have hpc := hi.pc_add_le h hc (hk.trans (by decide))
      omega
    | address m _ _ =>
      have ha := hi.operandAddr_bounds k m
      omega
    | mode hm _ =>
      have hd := Mode.toDigit_lt (List.all_eq_true.mp (decode_wellFormed (current_eq_some.mp hc).2) _ hm)
      omega
    | overflow => exact of_cell (zero_inCell _)
    | outputFull m => exact of_cell (hi.operandValue_cell 1 m)
    | target m => exact of_cell (hi.operandValue_cell 2 m)

end State.Bounded

/-- Settles O40: of the three things a step can do, a fault's entry records a bounded value, and an instruction stores
at the address of a parameter and moves pc from a cell in use or to a cell value. -/
theorem stepKeepsAddressBounds : Obligations.StepKeepsAddressBounds := by
  intro s t hi h hs
  rcases step_cases hs with ⟨-, rfl⟩ | ⟨-, c, k, x, l, hf, -, rfl⟩ | ⟨-, i, hc, -, rfl⟩
  · exact h
  · exact (h.setLen l).raise c k (h.stepFault_value hi hf)
  · have fetched : (s.grow s.pc).Bounded := h.setLen _
    exact fetched.afterInstr (hi.fetched hc) hc

end Machine
end Sys2Proof
end

section
/-! PROOFS. The frame of an instruction (R31): what it may write, said once for every instruction and, through it, for
every step. -/

namespace Sys2Proof.Machine

/-- What instruction `i`, run in `s`, may have changed in `t`, `pc` and `status` aside: each piece of state is as it
was, or it is one that `i` writes, and then this is how (R31). -/
structure Frame (s : State) (i : Instr) (t : State) : Prop where
  mem : t.mem = s.mem ∨ ∃ k m v, destination i = some (k, m) ∧ 0 ≤ operandAddr s k m ∧
    t.mem = s.mem.write (operandAddr s k m).toNat v
  memLen : s.memLen ≤ t.memLen
  rb : t.rb = s.rb ∨ ∃ m, i = .arb m
  inq : t.inq = s.inq ∨ ∃ m x, i = .inp m ∧ s.inq = x :: t.inq
  outq : t.outq = s.outq ∨ ∃ m x, i = .out m ∧ t.outq = s.outq ++ [x]
  latch : execFault s i = none →
    t.faultCause = s.faultCause ∧ t.faultParam = s.faultParam ∧ t.faultValue = s.faultValue
  config : t.config = s.config

variable {s t : State} {i : Instr} {k n : Nat} {m : Mode}

namespace Frame

/-! ## Changes that every instruction may make -/

theorem setLen (hn : s.memLen ≤ n) : Frame s i { s with memLen := n } :=
  ⟨.inl rfl, hn, .inl rfl, .inl rfl, .inl rfl, fun _ => ⟨rfl, rfl, rfl⟩, rfl⟩

theorem goOn (h : Frame s i t) (a : Nat) : Frame s i (t.goOn a) := { h with }

theorem pause (h : Frame s i t) : Frame s i t.pause := { h with }

theorem stop (h : Frame s i t) : Frame s i t.stop := { h with }

/-- Fault entry, for an instruction that has a fault to raise (R218). -/
theorem raise (h : Frame s i t) {f : FaultInfo} (hf : execFault s i = some f) (c : FaultCause) (k : Nat) (x : Int) :
    Frame s i (t.raise c k x) :=
  { h with latch := fun hn => by rw [hf] at hn; cases hn }

/-! ## The ends of an instruction -/

/-- A store at the destination parameter's address (R108). -/
theorem afterStore (hd : destination i = some (k, m)) (ha : s.legalAddr (operandAddr s k m)) (hn : s.memLen ≤ n)
    (v : Int) (len : Nat) : Frame s i (s.afterStore (operandAddr s k m) v len n) :=
  { setLen hn with
    mem := .inr ⟨k, m, v, hd, ha.1, rfl⟩
    memLen := hn.trans (le_max_left n _) }

/-- A store at the destination of an F4 instruction whose parameters resolve. -/
theorem afterTriple {m1 m2 m3 : Mode} (hd : destination i = some (3, m3)) (hf : tripleFault s m1 m2 m3 = none)
    (v : Int) : Frame s i (s.afterStore (operandAddr s 3 m3) v 4 (lenAfterTriple s m1 m2)) :=
  afterStore hd (tripleFault_legalAddr hf) (grown_lenAfterTriple hf).1 v 4

theorem afterJump (hn : s.memLen ≤ n) {taken : Bool} {m2 : Mode} (hf : taken = true → jumpFault s m2 = none) :
    Frame s i (s.afterJump taken m2 n) := by
  cases taken with
  | true =>
    have hr : readFault s 2 m2 = none := (Option.or_eq_none_iff.mp (hf rfl)).1
    exact (setLen (hn.trans (grown_lenAfterRead s hr n).1)).goOn _
  | false => exact (setLen hn).goOn _

end Frame

/-! ## The faults of the jumps, as their meanings test the condition -/

theorem execFault_jt (s : State) (m1 m2 : Mode) :
    execFault s (.jt m1 m2) =
      (readFault s 1 m1).or (if isTrue (operandValue s 1 m1) then jumpFault s m2 else none) := by
  simp [execFault, isTrue]

theorem execFault_jf (s : State) (m1 m2 : Mode) :
    execFault s (.jf m1 m2) =
      (readFault s 1 m1).or (if !isTrue (operandValue s 1 m1) then jumpFault s m2 else none) := by
  simp [execFault, isTrue]

/-- A conditional jump with no fault to raise: its condition resolves, and its target if it is taken. -/
theorem jump_no_fault {m1 m2 : Mode} {taken : Bool}
    (h : (readFault s 1 m1).or (if taken then jumpFault s m2 else none) = none) :
    readFault s 1 m1 = none ∧ (taken = true → jumpFault s m2 = none) := by
  obtain ⟨hr, hj⟩ := Option.or_eq_none_iff.mp h
  exact ⟨hr, fun ht => by rwa [if_pos ht] at hj⟩

/-- A taken jump with no fault to raise has a target that is no negative number (R152). -/
theorem jumpFault_target_nonneg {m2 : Mode} (h : jumpFault s m2 = none) : 0 ≤ operandValue s 2 m2 := by
  have ht := (Option.or_eq_none_iff.mp h).2
  by_contra hn
  rw [if_pos (not_le.mp hn)] at ht
  cases ht

/-! ## The instructions -/

/-- An instruction with no fault to raise stays within its frame. -/
theorem afterInstr_frame (hf : execFault s i = none) : Frame s i (s.afterInstr i) := by
  cases i with
  | add m1 m2 m3 => exact .afterTriple rfl (Option.or_eq_none_iff.mp hf).1 _
  | mul m1 m2 m3 => exact .afterTriple rfl (Option.or_eq_none_iff.mp hf).1 _
  | lt m1 m2 m3 => exact .afterTriple rfl hf _
  | eq m1 m2 m3 => exact .afterTriple rfl hf _
  | inp m1 =>
    have hn := (grown_lenAfterWrite s hf s.memLen).1
    simp only [State.afterInstr]
    split
    · exact (Frame.setLen hn).pause
    · next x rest hq =>
      have stored := Frame.afterStore (i := .inp m1) rfl (writeFault_legalAddr hf) hn x 2
      exact { stored with inq := .inr ⟨m1, x, rfl, hq⟩ }
  | out m1 =>
    have hr := (Option.or_eq_none_iff.mp hf).1
    have read := Frame.setLen (i := .out m1) (grown_lenAfterRead s hr s.memLen).1
    exact { read with outq := .inr ⟨m1, _, rfl, rfl⟩ }
  | jt m1 m2 =>
    obtain ⟨hr, hj⟩ := jump_no_fault ((execFault_jt s m1 m2).symm.trans hf)
    exact .afterJump (grown_lenAfterRead s hr _).1 hj
  | jf m1 m2 =>
    obtain ⟨hr, hj⟩ := jump_no_fault ((execFault_jf s m1 m2).symm.trans hf)
    exact .afterJump (grown_lenAfterRead s hr _).1 hj
  | arb m1 =>
    have hr := (Option.or_eq_none_iff.mp hf).1
    have read := Frame.setLen (i := .arb m1) (grown_lenAfterRead s hr s.memLen).1
    exact { read with rb := .inr ⟨m1, rfl⟩ }
  | halt => exact (Frame.setLen le_rfl).stop

/-- Every instruction stays within its frame, whether it completes, pauses or faults. -/
theorem exec_frame (h : exec i s = .next t) : Frame s i t := by
  obtain ⟨hnone, hsome⟩ := exec_answers i s
  cases hf : execFault s i with
  | none =>
    cases (hnone hf).symm.trans h
    exact afterInstr_frame hf
  | some f =>
    obtain ⟨c, k, x⟩ := f
    obtain ⟨l, hg, he⟩ := hsome c k x hf
    cases he.symm.trans h
    exact (Frame.setLen hg.1).raise hf c k x

/-- Every cell but the destination's reads as before. -/
theorem Frame.cell_eq (h : Frame s i t) (hwf : s.mem.wf) {a : Int} (ha : 0 ≤ a)
    (hne : ∀ k m, destination i = some (k, m) → a ≠ operandAddr s k m) : t.cell a = s.cell a := by
  rcases h.mem with hm | ⟨k, m, v, hd, h0, hm⟩
  · rw [State.cell, State.cell, hm]
  · have elsewhere : a.toNat ≠ (operandAddr s k m).toNat := by
      have := hne k m hd
      omega
    rw [cell_of_nonneg t ha, cell_of_nonneg s ha, hm, Memory.read_write hwf, if_neg elsewhere]

/-- Settles O16: every instruction stays within its frame, and a store is read elsewhere as before. -/
theorem instructionFrame : Obligations.InstructionFrame := by
  intro i s t hwf h
  have frame := exec_frame h
  refine ⟨fun a ha hne => frame.cell_eq hwf ha hne, fun hi => ?_, fun hi => ?_, fun hi => ?_,
    frame.latch, frame.memLen, frame.config⟩
  · exact frame.rb.resolve_right fun ⟨m, hm⟩ => hi m hm
  · exact frame.inq.resolve_right fun ⟨m, _, hm, _⟩ => hi m hm
  · exact frame.outq.resolve_right fun ⟨m, _, hm, _⟩ => hi m hm

end Sys2Proof.Machine
end

section
/-! PROOFS. Where an instruction leaves `pc` (R110), and the write map of a step. -/

namespace Sys2Proof.Machine

/-- Instruction `i` has completed and gone on: status is Running, and `pc` is a taken jump's target, or past the
instruction (R109, R110). -/
structure Proceeds (s : State) (i : Instr) (t : State) : Prop where
  running : t.status = .running
  target : ∀ m, takenTarget s i = some m → (t.pc : Int) = operandValue s 2 m
  next : takenTarget s i = none → t.pc = s.pc + i.length

variable {s t : State} {i : Instr}

/-- An instruction that is no taken jump goes on past itself. -/
theorem proceeds_next (ht : takenTarget s i = none) (hs : t.status = .running) (hp : t.pc = s.pc + i.length) :
    Proceeds s i t :=
  ⟨hs, fun _ hm => absurd (ht.symm.trans hm) nofun, fun _ => hp⟩

theorem takenTarget_jt (s : State) (m1 m2 : Mode) :
    takenTarget s (.jt m1 m2) = if isTrue (operandValue s 1 m1) then some m2 else none := by
  simp [takenTarget, isTrue]

theorem takenTarget_jf (s : State) (m1 m2 : Mode) :
    takenTarget s (.jf m1 m2) = if !isTrue (operandValue s 1 m1) then some m2 else none := by
  simp [takenTarget, isTrue]

theorem proceeds_afterJump {taken : Bool} {m2 : Mode} {n : Nat}
    (ht : takenTarget s i = if taken then some m2 else none) (hlen : i.length = 3)
    (hf : taken = true → jumpFault s m2 = none) : Proceeds s i (s.afterJump taken m2 n) := by
  cases taken with
  | true =>
    refine ⟨rfl, fun m hm => ?_, fun hm => ?_⟩
    · cases ht.symm.trans hm
      exact Int.toNat_of_nonneg (jumpFault_target_nonneg (hf rfl))
    · cases ht.symm.trans hm
  | false => exact proceeds_next ht rfl (by rw [hlen]; rfl)

/-- An instruction with no fault to raise goes on, or leaves `pc` where it is: HALT, and IN when it pauses. -/
theorem afterInstr_pc (hf : execFault s i = none) :
    Proceeds s i (s.afterInstr i) ∨ (s.afterInstr i).pc = s.pc := by
  cases i with
  | add m1 m2 m3 => exact .inl (proceeds_next rfl rfl rfl)
  | mul m1 m2 m3 => exact .inl (proceeds_next rfl rfl rfl)
  | lt m1 m2 m3 => exact .inl (proceeds_next rfl rfl rfl)
  | eq m1 m2 m3 => exact .inl (proceeds_next rfl rfl rfl)
  | out m1 => exact .inl (proceeds_next rfl rfl rfl)
  | arb m1 => exact .inl (proceeds_next rfl rfl rfl)
  | inp m1 =>
    simp only [State.afterInstr]
    split
    · exact .inr rfl
    · exact .inl (proceeds_next rfl rfl rfl)
  | jt m1 m2 =>
    obtain ⟨-, hj⟩ := jump_no_fault ((execFault_jt s m1 m2).symm.trans hf)
    exact .inl (proceeds_afterJump (takenTarget_jt s m1 m2) rfl hj)
  | jf m1 m2 =>
    obtain ⟨-, hj⟩ := jump_no_fault ((execFault_jf s m1 m2).symm.trans hf)
    exact .inl (proceeds_afterJump (takenTarget_jf s m1 m2) rfl hj)
  | halt => exact .inr rfl

/-! ## The step -/

@[simp] theorem takenTarget_grow (s : State) (a : Nat) (i : Instr) : takenTarget (s.grow a) i = takenTarget s i := by
  cases i <;> rfl

/-- The fetch before an instruction is within its frame: it only grows `mem_len` (R51). -/
theorem Frame.of_grow {a : Nat} (h : Frame (s.grow a) i t) : Frame s i t :=
  { h with
    memLen := (le_max_left s.memLen _).trans h.memLen
    latch := fun hf => h.latch ((execFault_grow s a i).trans hf) }

theorem Proceeds.of_grow {a : Nat} (h : Proceeds (s.grow a) i t) : Proceeds s i t :=
  ⟨h.running, fun m hm => h.target m ((takenTarget_grow s a i).trans hm),
    fun hm => h.next ((takenTarget_grow s a i).trans hm)⟩

/-- Settles O15: a step that does nothing or enters a fault writes no more than the latch, status and `mem_len`; one
that runs an instruction stays within its frame, and goes on or leaves `pc` alone. -/
theorem stepWriteMap : Obligations.StepWriteMap := by
  intro s t h
  rcases step_cases h with ⟨-, rfl⟩ | ⟨hl, c, k, x, l, hf, hg, rfl⟩ | ⟨hl, i, hc, hf, ht⟩
  · exact ⟨.inl rfl, le_rfl, absurd rfl, absurd rfl, absurd rfl, fun _ => rfl, absurd rfl, absurd rfl,
      absurd rfl, rfl⟩
  · exact ⟨.inl rfl, hg.1, absurd rfl, absurd rfl, absurd rfl, fun _ => rfl, absurd rfl, fun _ => hl,
      fun _ => ⟨hl, hf⟩, rfl⟩
  · have hf' := (execFault_grow s s.pc i).trans hf
    have frame : Frame s i t := ht ▸ (afterInstr_frame hf').of_grow
    have goes : Proceeds s i t ∨ t.pc = s.pc := ht ▸ (afterInstr_pc hf').imp_left Proceeds.of_grow
    obtain ⟨hcause, hparam, hvalue⟩ := frame.latch hf
    refine ⟨?mem, frame.memLen, fun hne => ?rb, fun hne => ?inq, fun hne => ?outq, fun hstop => ?stays,
      fun hne => ?pc, fun _ => hl, fun hne => absurd (by rw [hcause, hparam, hvalue]) hne, frame.config⟩
    case mem => exact frame.mem.imp_right fun ⟨k, m, v, hm⟩ => ⟨i, k, m, v, hc, hm⟩
    case rb =>
      obtain ⟨m, rfl⟩ := frame.rb.resolve_left hne
      exact ⟨m, hc⟩
    case inq =>
      obtain ⟨m, x, rfl, hx⟩ := frame.inq.resolve_left hne
      exact ⟨m, x, hc, hx⟩
    case outq =>
      obtain ⟨m, x, rfl, hx⟩ := frame.outq.resolve_left hne
      exact ⟨m, x, hc, hx⟩
    case stays =>
      refine goes.resolve_left fun hgo => ?_
      rw [State.faulted, hcause, hgo.running] at hstop
      simp [hl.1] at hstop
    case pc =>
      have hgo := goes.resolve_right hne
      refine ⟨i, hc, ?_⟩
      split
      · next m hm => exact hgo.target m hm
      · next hm => exact hgo.next hm

end Sys2Proof.Machine
end

section
/-! PROOFS. `mem_len` only grows, but for LOAD (R25). -/

namespace Sys2Proof.Machine

variable {s : State}

theorem stepState_memLen_le (s : State) : s.memLen ≤ (stepState s).memLen := by
  rw [stepState]
  split
  · next t h =>
    obtain ⟨-, grown, -⟩ := stepWriteMap s t h
    exact grown
  · exact le_rfl
  · exact le_rfl

theorem run_memLen_le (fuel : Nat) (s : State) : s.memLen ≤ (run fuel s).2.memLen := by
  induction fuel generalizing s with
  | zero => exact le_rfl
  | succ fuel ih =>
    rw [run]
    split
    · exact (stepState_memLen_le s).trans (ih _)
    · exact stepState_memLen_le s

/-- Settles O37: PEEK and POKE grow `mem_len` or leave it, STEP and RUN by the steps' growth, and the others leave
it. -/
theorem memLenNeverDecreases : Obligations.MemLenNeverDecreases := by
  intro t s hload
  cases t with
  | load p => cases hload
  | provideInput x =>
    rcases provideInput_state x s with h | ⟨-, -, h⟩ <;> exact (congrArg State.memLen h).ge
  | step => exact stepState_memLen_le s
  | run fuel => exact run_memLen_le fuel s
  | drainOutput => exact le_rfl
  | peek i =>
    rcases peek_state i s with h | ⟨-, h⟩
    · exact (congrArg State.memLen h).ge
    · exact (le_max_left s.memLen _).trans (congrArg State.memLen h).ge
  | poke i x =>
    rcases poke_state i x s with h | ⟨-, -, h⟩
    · exact (congrArg State.memLen h).ge
    · exact (le_max_left s.memLen _).trans (congrArg State.memLen h).ge
  | status => exact le_rfl

end Sys2Proof.Machine
end

section
/-! PROOFS. Nothing observes `mem_len` (R25, R32 (a)): cores that differ in it alone do the same. -/

namespace Sys2Proof.Machine

/-- `t` differs from `s` at most in `mem_len`. -/
def SameButLen (s t : State) : Prop := ∃ n, t = { s with memLen := n }

/-- Two answers with the same response, from cores that differ at most in `mem_len`. -/
def Alike {α : Type} (r r' : α × State) : Prop := r'.1 = r.1 ∧ SameButLen r.2 r'.2

variable {s t : State}

theorem SameButLen.refl (s : State) : SameButLen s s := ⟨s.memLen, rfl⟩

/-! ## The step -/

theorem execFault_setLen (s : State) (n : Nat) (i : Instr) :
    execFault { s with memLen := n } i = execFault s i := by
  cases i <;> rfl

theorem stepFault_setLen (s : State) (n : Nat) : stepFault { s with memLen := n } = stepFault s := by
  rw [stepFault, stepFault]
  simp only [execFault_setLen]

theorem afterJump_sameButLen (s : State) (n : Nat) (taken : Bool) (m2 : Mode) (l l' : Nat) :
    SameButLen (s.afterJump taken m2 l) (({ s with memLen := n } : State).afterJump taken m2 l') := by
  cases taken <;> exact ⟨_, rfl⟩

theorem afterInstr_sameButLen (s : State) (n : Nat) (i : Instr) :
    SameButLen (s.afterInstr i) (({ s with memLen := n } : State).afterInstr i) := by
  cases i with
  | jt m1 m2 => exact afterJump_sameButLen s n _ m2 _ _
  | jf m1 m2 => exact afterJump_sameButLen s n _ m2 _ _
  | inp m1 =>
    simp only [State.afterInstr]
    split <;> exact ⟨_, rfl⟩
  | _ => exact ⟨_, rfl⟩

/-- An instruction answers two such cores with two such cores: the same fault's entry, or the same completion. -/
theorem exec_sameButLen (i : Instr) (h : SameButLen s t) :
    ∃ u v, exec i s = .next u ∧ exec i t = .next v ∧ SameButLen u v := by
  obtain ⟨n, rfl⟩ := h
  obtain ⟨hnone, hsome⟩ := exec_answers i s
  obtain ⟨hnone', hsome'⟩ := exec_answers i { s with memLen := n }
  rw [execFault_setLen] at hnone' hsome'
  cases hf : execFault s i with
  | none => exact ⟨_, _, hnone hf, hnone' hf, afterInstr_sameButLen s n i⟩
  | some f =>
    obtain ⟨c, k, x⟩ := f
    obtain ⟨l, -, he⟩ := hsome c k x hf
    obtain ⟨l', -, he'⟩ := hsome' c k x hf
    exact ⟨_, _, he, he', l', rfl⟩

/-- A step answers two such cores with two such cores. -/
theorem step_sameButLen (h : SameButLen s t) :
    ∃ u v, step s = .next u ∧ step t = .next v ∧ SameButLen u v := by
  obtain ⟨n, rfl⟩ := h
  simp only [step]
  split_ifs
  · exact ⟨_, _, rfl, rfl, n, rfl⟩
  · cases hc : s.current with
    | none =>
      obtain ⟨c, x, l, -, hf, he⟩ := (fetch_spec s).2 hc
      obtain ⟨c', x', l', -, hf', he'⟩ := (fetch_spec { s with memLen := n }).2 hc
      rw [stepFault_setLen, hf] at hf'
      cases hf'
      rw [he, he']
      exact ⟨_, _, rfl, rfl, l', rfl⟩
    | some i =>
      rw [(fetch_spec s).1 i hc, (fetch_spec { s with memLen := n }).1 i hc]
      exact exec_sameButLen i ⟨_, rfl⟩
  · exact ⟨_, _, rfl, rfl, n, rfl⟩

theorem stepState_sameButLen (h : SameButLen s t) : SameButLen (stepState s) (stepState t) := by
  obtain ⟨u, v, hu, hv, huv⟩ := step_sameButLen h
  rw [stepState, stepState, hu, hv]
  exact huv

/-! ## The transactions -/

/-- STEP's response does not look at `mem_len`. -/
theorem stepResponse_alike (h : SameButLen s t) : Alike (stepResponse s, s) (stepResponse t, t) := by
  obtain ⟨n, rfl⟩ := h
  exact ⟨rfl, n, rfl⟩

theorem goesOn_of_sameButLen (h : SameButLen s t) : t.goesOn = s.goesOn := by
  obtain ⟨n, rfl⟩ := h
  rfl

theorem run_alike (fuel : Nat) (h : SameButLen s t) : Alike (run fuel s) (run fuel t) := by
  induction fuel generalizing s t with
  | zero => exact ⟨rfl, h⟩
  | succ fuel ih =>
    have hstep := stepState_sameButLen h
    rw [run, run, goesOn_of_sameButLen hstep]
    split
    · exact ih hstep
    · exact stepResponse_alike hstep

theorem load_alike (p : List Int) (h : SameButLen s t) : Alike (transact (.load p) s) (transact (.load p) t) := by
  obtain ⟨n, rfl⟩ := h
  simp only [transact]
  split
  · exact ⟨rfl, .refl _⟩
  · exact ⟨rfl, n, rfl⟩

theorem provideInput_alike (x : Int) (h : SameButLen s t) : Alike (provideInput x s) (provideInput x t) := by
  obtain ⟨n, rfl⟩ := h
  simp only [provideInput]
  split_ifs <;> exact ⟨rfl, n, rfl⟩

theorem peek_alike (i : Int) (h : SameButLen s t) : Alike (peek i s) (peek i t) := by
  obtain ⟨n, rfl⟩ := h
  simp only [peek, memRead]
  split_ifs <;> exact ⟨rfl, _, rfl⟩

theorem poke_alike (i x : Int) (h : SameButLen s t) : Alike (poke i x s) (poke i x t) := by
  obtain ⟨n, rfl⟩ := h
  simp only [poke, memWrite]
  split_ifs <;> exact ⟨rfl, _, rfl⟩

theorem transact_alike (q : Transaction) (h : SameButLen s t) : Alike (transact q s) (transact q t) := by
  cases q with
  | load p => exact load_alike p h
  | provideInput x => exact provideInput_alike x h
  | step => exact stepResponse_alike (stepState_sameButLen h)
  | run fuel => exact run_alike fuel h
  | drainOutput => obtain ⟨n, rfl⟩ := h; exact ⟨rfl, n, rfl⟩
  | peek i => exact peek_alike i h
  | poke i x => exact poke_alike i x h
  | status => obtain ⟨n, rfl⟩ := h; exact ⟨rfl, n, rfl⟩

theorem transactAll_alike (qs : List Transaction) (h : SameButLen s t) :
    Alike (transactAll qs s) (transactAll qs t) := by
  induction qs generalizing s t with
  | nil => exact ⟨rfl, h⟩
  | cons q qs ih =>
    obtain ⟨hresponse, hstate⟩ := transact_alike q h
    obtain ⟨hresponses, hfinal⟩ := ih hstate
    exact ⟨congrArg₂ List.cons hresponse hresponses, hfinal⟩

/-- Settles O38, by induction on the sequence: each transaction answers two cores that differ only in `mem_len` alike,
and leaves two such cores. -/
theorem memLenIsUnobservable : Obligations.MemLenIsUnobservable :=
  fun ts _ n => transactAll_alike ts ⟨n, rfl⟩

end Sys2Proof.Machine
end

section
/-! PROOFS. The data memory (R51, R52, R65): what MemRead and MemWrite answer at every address, and that reads determine
a canonical memory (log 1). -/

namespace Sys2Proof.Machine

/-- The entries of a canonical memory are the non-zero cells it reads. -/
theorem Memory.mem_iff_read {m : Memory} (h : m.wf) {c : Nat × Int} : c ∈ m ↔ c.2 ≠ 0 ∧ m.read c.1 = c.2 := by
  refine ⟨fun hc => ⟨h.2 c hc, Memory.read_of_mem h hc⟩, fun ⟨hne, hr⟩ => ?_⟩
  rcases Memory.read_listed m c.1 with h0 | hlisted
  · exact absurd (hr.symm.trans h0) hne
  · rwa [hr] at hlisted

/-- Settles O36: two lists with the same entries, both in rising order of address, are equal. -/
theorem memoryIsDeterminedByReads : Obligations.MemoryIsDeterminedByReads := by
  intro m m' h h' hread
  have irrefl : Std.Irrefl fun x y : Nat × Int => x.1 < y.1 := ⟨fun x => lt_irrefl x.1⟩
  have antisymm : Std.Antisymm fun x y : Nat × Int => x.1 < y.1 := ⟨fun _ _ hxy hyx => absurd hxy hyx.asymm⟩
  refine h.1.eq_of_mem_iff h'.1 fun c => ?_
  rw [Memory.mem_iff_read h, Memory.mem_iff_read h', hread]

variable {s t : State} {a : Int}

/-- An address beyond a finite capacity is not legal (R60). -/
theorem not_legalAddr_of_beyond (h : s.config.memCapacity.admits a.toNat = false) : ¬ s.legalAddr a :=
  fun ⟨_, hadmits⟩ => Bool.false_ne_true (h.symm.trans hadmits)

/-- Settles O34: the cases of MemRead. -/
theorem memReadChecksAndGrows : Obligations.MemReadChecksAndGrows :=
  fun k _ s => ⟨fun hneg => memRead_negative s hneg k,
    fun h0 hcap => memRead_beyond h0 (not_legalAddr_of_beyond hcap) k,
    fun hlegal => memRead_legal hlegal k⟩

/-- MemWrite below 0 (R52). -/
theorem memWrite_negative (h : a < 0) (k : Nat) (v : Int) :
    memWrite k a v s = .fault .negativeAddress k a s := if_pos h

/-- MemWrite beyond a finite capacity (R52). -/
theorem memWrite_beyond (h0 : 0 ≤ a) (h : s.config.memCapacity.admits a.toNat = false) (k : Nat) (v : Int) :
    memWrite k a v s = .fault .capacityExceeded k a s := by
  rw [memWrite, if_neg (not_lt.mpr h0), if_pos h]

/-- The cells of a core whose memory is that of `s` with one cell written (R65). -/
theorem cell_of_mem_write (hwf : s.mem.wf) (ha : 0 ≤ a) {v : Int} (ht : t.mem = s.mem.write a.toNat v) {b : Int}
    (hb : 0 ≤ b) : t.cell b = if b = a then v else s.cell b := by
  have same : b.toNat = a.toNat ↔ b = a := by omega
  simp only [cell_of_nonneg _ hb, ht, Memory.read_write hwf, same]

/-- Settles O35: the cases of MemWrite, and read after write. -/
theorem memWriteThenRead : Obligations.MemWriteThenRead := by
  intro k a v s
  refine ⟨fun hneg => memWrite_negative hneg k v, fun h0 hcap => memWrite_beyond h0 hcap k v, fun hlegal hwf => ?_⟩
  exact ⟨s.storeCell a.toNat v, memWrite_legal hlegal k v, Memory.write_wf hwf a.toNat v,
    fun b hb => cell_of_mem_write hwf hlegal.1 rfl hb, rfl⟩

end Sys2Proof.Machine
end

section
/-! PROOFS. An instruction that completes with a value to store writes it at its destination's address, and it reads
back from there (R65, R78, R101). -/

namespace Sys2Proof.Machine

variable {s : State} {i : Instr} {k : Nat} {m : Mode}

/-- The destination of an instruction with no fault to raise is legal (R101). -/
theorem destination_legalAddr (hd : destination i = some (k, m)) (hf : execFault s i = none) :
    s.legalAddr (operandAddr s k m) := by
  cases i <;> cases hd
  case add | mul => exact tripleFault_legalAddr (Option.or_eq_none_iff.mp hf).1
  case lt | eq => exact tripleFault_legalAddr hf
  case inp => exact writeFault_legalAddr hf

/-- With a value to store, an instruction that raises nothing makes the one write of it at its destination (R108). -/
theorem afterInstr_mem {v : Int} (hd : destination i = some (k, m)) (hv : storedValue s i = some v) :
    (s.afterInstr i).mem = s.mem.write (operandAddr s k m).toNat v := by
  cases i <;> cases hd
  case add | mul => cases hv; rfl
  case lt => cases hv; simp [State.afterInstr, State.afterStore, lessThan, truth]
  case eq => cases hv; simp [State.afterInstr, State.afterStore, equalTo, truth]
  case inp =>
    obtain ⟨rest, hq⟩ := List.head?_eq_some_iff.mp hv
    simp only [State.afterInstr, hq]
    rfl

/-- Settles O17: the instruction leaves `afterInstr`, whose memory is the old one with one cell written. -/
theorem completedStoreReadsBack : Obligations.CompletedStoreReadsBack := by
  intro i s k m v hwf hd hf hv
  have legal := destination_legalAddr hd hf
  exact ⟨s.afterInstr i, (exec_answers i s).1 hf, legal.1,
    fun b hb => cell_of_mem_write hwf legal.1 (afterInstr_mem hd hv) hb⟩

end Sys2Proof.Machine
end

section
/-! PROOFS. The decoder (R72 to R75) in terms of the canonical encoding (R82): a cell decodes by its low two digits and,
above them, by as many mode digits as the instruction has parameters. -/

namespace Sys2Proof

/-! ## Mode digits -/

/-- The modes that the lowest `n` digits of `v` stand for, the units digit first (R73, R74). -/
def modesOfDigits (v : Nat) : Nat → List Mode
  | 0 => []
  | n + 1 => Mode.ofDigit (v % 10) :: modesOfDigits (v / 10) n

/-- The decoder's modes are the digits above the operation (R73). -/
theorem modesOfDigits_eq_modeAt (v : Nat) :
    modesOfDigits (v / 100) 1 = [modeAt v 1] ∧
    modesOfDigits (v / 100) 2 = [modeAt v 1, modeAt v 2] ∧
    modesOfDigits (v / 100) 3 = [modeAt v 1, modeAt v 2, modeAt v 3] := by
  simp [modesOfDigits, modeAt, digit, Nat.div_div_eq_div_mul]

/-- A well-formed mode has the digit `d` exactly when `d` stands for it. -/
theorem Mode.toDigit_eq_iff {m : Mode} (h : m.wellFormed = true) {d : Nat} : m.toDigit = d ↔ Mode.ofDigit d = m := by
  constructor
  · rintro rfl
    exact Mode.ofDigit_toDigit h
  · rintro rfl
    exact Mode.toDigit_ofDigit d

/-- Well-formed modes, as a number, are the lowest digits of `v` exactly when those digits stand for them. -/
theorem modesNumber_eq_mod_iff {ms : List Mode} (h : ms.all Mode.wellFormed = true) (v : Nat) :
    v % 10 ^ ms.length = modesNumber ms ↔ modesOfDigits v ms.length = ms := by
  induction ms generalizing v with
  | nil => simp [modesNumber, modesOfDigits, Nat.mod_one]
  | cons m ms ih =>
    simp only [List.all_cons, Bool.and_eq_true] at h
    obtain ⟨hm, hms⟩ := h
    have split : v % 10 ^ (ms.length + 1) = v % 10 + 10 * (v / 10 % 10 ^ ms.length) := by
      rw [Nat.pow_succ', Nat.mod_mul]
    have hd := Mode.toDigit_lt hm
    calc v % 10 ^ (ms.length + 1) = m.toDigit + 10 * modesNumber ms
        ↔ m.toDigit = v % 10 ∧ v / 10 % 10 ^ ms.length = modesNumber ms := by omega
      _ ↔ Mode.ofDigit (v % 10) :: modesOfDigits (v / 10) ms.length = m :: ms := by
        rw [Mode.toDigit_eq_iff hm, ih hms, List.cons.injEq]

/-! ## The decoder's answer -/

theorem decode_negative {v : Int} (h : v < 0) : decode v = .error .negativeCell := if_pos h

@[simp] theorem decode_natCast (v : Nat) : decode (v : Int) = decodeNat v := by
  rw [decode, if_neg (by omega), Int.toNat_natCast]

theorem decode_ok_nonneg {v : Int} {i : Instr} (h : decode v = .ok i) : 0 ≤ v := by
  by_contra hn
  rw [decode_negative (not_le.mp hn)] at h
  cases h

/-- A cell decodes to `i` exactly when its low two digits are `i`'s operation and the digits above them `i`'s modes. -/
theorem decodeNat_eq_ok_iff {v : Nat} {i : Instr} :
    decodeNat v = .ok i ↔ v % 100 = i.opcode ∧ modesOfDigits (v / 100) i.paramCount = i.modes := by
  obtain ⟨one, two, three⟩ := modesOfDigits_eq_modeAt v
  constructor
  · intro h
    unfold decodeNat at h
    split at h <;> cases h
    case h_1 hv | h_2 hv | h_7 hv | h_8 hv => exact ⟨hv, three⟩
    case h_5 hv | h_6 hv => exact ⟨hv, two⟩
    case h_3 hv | h_4 hv | h_9 hv => exact ⟨hv, one⟩
    case h_10 hv => exact ⟨hv, rfl⟩
  · rintro ⟨hop, hms⟩
    cases i
    case' add | mul | lt | eq => cases three.symm.trans hms
    case' jt | jf => cases two.symm.trans hms
    case' inp | out | arb => cases one.symm.trans hms
    all_goals simp only [decodeNat, hop, Instr.opcode]

/-- The canonical cell of a well-formed instruction says which operation and which modes (R82). -/
theorem mod_eq_encode_iff {i : Instr} (h : i.wellFormed = true) (v : Nat) :
    (v : Int) % (10 ^ (i.paramCount + 2) : Nat) = encode i ↔
      v % 100 = i.opcode ∧ modesOfDigits (v / 100) i.paramCount = i.modes := by
  have hop := i.opcode_lt
  have split : v % 10 ^ (i.paramCount + 2) = v % 100 + 100 * (v / 100 % 10 ^ i.paramCount) := by
    rw [Nat.pow_add, Nat.mul_comm, Nat.mod_mul]
  calc (v : Int) % (10 ^ (i.paramCount + 2) : Nat) = encode i
      ↔ v % 10 ^ (i.paramCount + 2) = i.opcode + 100 * modesNumber i.modes := by
        rw [encode, ← Int.natCast_mod, Int.natCast_inj]
    _ ↔ v % 100 = i.opcode ∧ v / 100 % 10 ^ i.paramCount = modesNumber i.modes := by omega
    _ ↔ v % 100 = i.opcode ∧ modesOfDigits (v / 100) i.paramCount = i.modes :=
        and_congr_right fun _ => modesNumber_eq_mod_iff h _

/-- Settles O6: the decoder's answer and the canonical cell say the same of a cell's digits. -/
theorem decodeExactlyCanonicalDigits : Obligations.DecodeExactlyCanonicalDigits := by
  intro v i
  constructor
  · intro h
    have hwf := decode_wellFormed h
    lift v to Nat using decode_ok_nonneg h
    rw [decode_natCast, decodeNat_eq_ok_iff] at h
    exact ⟨hwf, Int.natCast_nonneg v, (mod_eq_encode_iff hwf v).mpr h⟩
  · rintro ⟨hwf, h0, hv⟩
    lift v to Nat using h0
    rw [decode_natCast, decodeNat_eq_ok_iff]
    exact (mod_eq_encode_iff hwf v).mp hv

/-- Decoding is a left inverse of encoding (R82). -/
theorem decode_encode {i : Instr} (h : i.wellFormed = true) : decode (encode i) = .ok i := by
  have h0 : 0 ≤ encode i := Int.natCast_nonneg _
  have hlt : encode i < (10 ^ (i.paramCount + 2) : Nat) := by
    have := (Laws.EncodeFields.of_fields i h).2.2
    omega
  exact (decodeExactlyCanonicalDigits _ i).mpr ⟨h, h0, Int.emod_eq_of_lt h0 hlt⟩

/-- Settles O5: the opcode cell decodes to `i`, which then takes as many cells as it has parameters. -/
theorem decodeEncodeRoundTrip : Obligations.DecodeEncodeRoundTrip := by
  intro i ps rest h hlen
  have take : (ps ++ rest ++ List.replicate i.paramCount 0).take i.paramCount = ps := by
    rw [List.append_assoc, List.take_left' hlen]
  have drop : (ps ++ rest).drop i.paramCount = rest := List.drop_left' hlen
  simp only [encodeCells, List.cons_append, decodeCells, decode_encode h, Except.map, take, drop]

/-- Settles O8: the added number leaves the cell's digits up to the last mode digit as they are. -/
theorem highDigitsIgnored : Obligations.HighDigitsIgnored := by
  intro v i h hv
  obtain ⟨hwf, h0, hmod⟩ := (decodeExactlyCanonicalDigits v i).mp hv
  refine (decodeExactlyCanonicalDigits _ i).mpr ⟨hwf, by positivity, ?_⟩
  rw [Nat.cast_mul, Int.add_mul_emod_self_left, hmod]

/-! ## The cells the decoder refuses -/

/-- A cell that is not negative is refused exactly for its low two digits (R72). -/
theorem decodeNat_eq_error_iff {v : Nat} :
    (∃ e, decodeNat v = .error e) ↔ v % 100 ∉ [1, 2, 3, 4, 5, 6, 7, 8, 9, 99] := by
  unfold decodeNat
  split
  case h_11 => simp_all
  all_goals next hv => simp [hv]

/-- Settles O7: a negative cell is refused, and another by its low two digits. -/
theorem illegalOpcodeCells : Obligations.IllegalOpcodeCells := by
  intro v
  by_cases h0 : v < 0
  · exact ⟨fun _ => .inl h0, fun _ => ⟨_, decode_negative h0⟩⟩
  · lift v to Nat using not_lt.mp h0
    rw [decode_natCast, decodeNat_eq_error_iff, or_iff_right h0]
    simp only [List.mem_cons, List.not_mem_nil, or_false]
    omega

/-- Settles O4: each cell is decoded as it stands. -/
theorem writtenOutCellsDecode : Obligations.WrittenOutCellsDecode := by
  unfold Obligations.WrittenOutCellsDecode
  decide

end Sys2Proof
end

section
/-! PROOFS. The modes InvalidMode records are illegal ones (R81, R212): a legal instruction's faults are those of R210's
table that an instruction with no modes at all could raise. -/

namespace Sys2Proof.Machine

variable {s : State} {f : FaultInfo} {k : Nat} {m : Mode}

/-- Only a mode of the instruction's is recorded as InvalidMode (R212). -/
theorem RecordsFault.cause_ne_invalidMode (h : RecordsFault s [] f) : f.1 ≠ .invalidMode := by
  cases h with
  | address m hc hk => rcases hc with rfl | rfl <;> exact nofun
  | mode hm hk => cases hm
  | _ => exact nofun

theorem readFault_records_of_legal (hk : k ≤ 3) (hm : m.legalFor .read = true) (h : readFault s k m = some f) :
    RecordsFault s [] f := by
  cases m with
  | position => exact addressedFault_records hk h
  | relative => exact addressedFault_records hk h
  | immediate =>
    rw [readFault] at h
    split_ifs at h
    cases h; exact .paramCell hk
  | undefined d => cases hm

theorem writeFault_records_of_legal (hk : k ≤ 3) (hm : m.legalFor .write = true) (h : writeFault s k m = some f) :
    RecordsFault s [] f := by
  cases m with
  | position => exact addressedFault_records hk h
  | relative => exact addressedFault_records hk h
  | immediate => cases hm
  | undefined d => cases hm

theorem tripleFault_records_of_legal {m1 m2 m3 : Mode} (h1 : m1.legalFor .read = true) (h2 : m2.legalFor .read = true)
    (h3 : m3.legalFor .write = true) (h : tripleFault s m1 m2 m3 = some f) : RecordsFault s [] f :=
  or_records (readFault_records_of_legal (by decide) h1)
    (or_records (readFault_records_of_legal (by decide) h2) (writeFault_records_of_legal (by decide) h3)) h

theorem jumpFault_records_of_legal (hm : m.legalFor .read = true) (h : jumpFault s m = some f) :
    RecordsFault s [] f := by
  refine or_records (readFault_records_of_legal (by decide) hm) (fun ht => ?_) h
  split_ifs at ht
  cases ht; exact .target m

/-- No fault a legal instruction raises records a mode. -/
theorem execFault_records_of_legal {i : Instr} (hl : i.legal = true) (h : execFault s i = some f) :
    RecordsFault s [] f := by
  cases i <;>
    simp only [Instr.legal, Instr.modes, Instr.roles, List.zip_cons_cons, List.zip_nil_left, List.all_cons,
      List.all_nil, Bool.and_true, Bool.and_eq_true] at hl
  case add | mul =>
    obtain ⟨h1, h2, h3⟩ := hl
    exact or_records (tripleFault_records_of_legal h1 h2 h3) overflowFault_records h
  case lt | eq =>
    obtain ⟨h1, h2, h3⟩ := hl
    exact tripleFault_records_of_legal h1 h2 h3 h
  case inp => exact writeFault_records_of_legal (by decide) hl h
  case out m1 =>
    refine or_records (readFault_records_of_legal (by decide) hl) (fun hq => ?_) h
    split_ifs at hq
    cases hq; exact .outputFull m1
  case jt | jf =>
    obtain ⟨h1, h2⟩ := hl
    refine or_records (readFault_records_of_legal (by decide) h1) (fun hj => ?_) h
    split_ifs at hj
    exact jumpFault_records_of_legal h2 hj
  case arb => exact or_records (readFault_records_of_legal (by decide) hl) overflowFault_records h
  case halt => cases h

/-- Settles O30: an instruction with no fault to raise leaves the latch, and a fault a legal one raises records no
mode. -/
theorem legalInstructionRaisesNoInvalidMode : Obligations.LegalInstructionRaisesNoInvalidMode := by
  intro i s t hl hs h
  cases hf : execFault s i with
  | none =>
    rw [((exec_frame h).latch hf).1]
    exact hs
  | some f =>
    obtain ⟨c, k, x⟩ := f
    obtain ⟨l, -, he⟩ := (exec_answers i s).2 c k x hf
    rw [he] at h
    cases h
    exact (execFault_records_of_legal hl hf).cause_ne_invalidMode

end Sys2Proof.Machine
end

section
/-! PROOFS. The effects of the pseudo-instructions (R85): each is the completion, or the Overflow, of the one
instruction it stands for. -/

namespace Sys2Proof.Machine

variable {s : State} {m1 m2 m3 : Mode}

/-! ## The instructions the five stand for -/

/-- An Immediate operand is its parameter cell (R100). -/
theorem operandValue_immediate (s : State) (k : Nat) : operandValue s k .immediate = s.param k := rfl

theorem tripleFault_eq_none_iff :
    tripleFault s m1 m2 m3 = none ↔ Readable s 1 m1 ∧ Readable s 2 m2 ∧ Writable s 3 m3 := by
  simp only [tripleFault, Option.or_eq_none_iff, readable_iff, writable_iff]

/-- ADD whose parameters resolve stores the sum, if it is a cell value (R130). -/
theorem exec_add_stores (hp : tripleFault s m1 m2 m3 = none) {r : Int}
    (hr : operandValue s 1 m1 + operandValue s 2 m2 = r) (hc : InCell s.config.cellWidth r) :
    exec (.add m1 m2 m3) s = .next (s.afterStore (operandAddr s 3 m3) r 4 (lenAfterTriple s m1 m2)) := by
  subst hr
  exact (exec_answers (.add m1 m2 m3) s).1 (Option.or_eq_none_iff.mpr ⟨hp, overflowFault_eq_none.mpr hc⟩)

/-- MUL whose parameters resolve stores the product, if it is a cell value (R131). -/
theorem exec_mul_stores (hp : tripleFault s m1 m2 m3 = none) {r : Int}
    (hr : operandValue s 1 m1 * operandValue s 2 m2 = r) (hc : InCell s.config.cellWidth r) :
    exec (.mul m1 m2 m3) s = .next (s.afterStore (operandAddr s 3 m3) r 4 (lenAfterTriple s m1 m2)) := by
  subst hr
  exact (exec_answers (.mul m1 m2 m3) s).1 (Option.or_eq_none_iff.mpr ⟨hp, overflowFault_eq_none.mpr hc⟩)

/-- MUL whose parameters resolve raises Overflow, if the product is no cell value (R132). -/
theorem exec_mul_overflows (hp : tripleFault s m1 m2 m3 = none) {r : Int}
    (hr : operandValue s 1 m1 * operandValue s 2 m2 = r) (hc : ¬ InCell s.config.cellWidth r) :
    ∃ n, exec (.mul m1 m2 m3) s = .next (({ s with memLen := n } : State).raise .overflow 0 0) := by
  subst hr
  have hf : execFault s (.mul m1 m2 m3) = some (.overflow, 0, 0) := by
    rw [execFault, hp, Option.none_or, overflowFault, if_neg hc]
  obtain ⟨n, -, he⟩ := (exec_answers (.mul m1 m2 m3) s).2 _ _ _ hf
  exact ⟨n, he⟩

/-- JT whose condition is read as 0 goes on (R150). -/
theorem exec_jt_not_taken (h1 : Readable s 1 m1) (hc : operandValue s 1 m1 = 0) :
    exec (.jt m1 m2) s = .next (({ s with memLen := lenAfterRead s 1 m1 s.memLen } : State).goOn (s.pc + 3)) := by
  have hf : execFault s (.jt m1 m2) = none := by
    rw [execFault, (readable_iff s 1 m1).mp h1, Option.none_or, if_neg (not_not.mpr hc)]
  rw [(exec_answers (.jt m1 m2) s).1 hf, State.afterInstr, State.afterJump, hc]
  rfl

/-- JT whose condition is read as another value goes to its target, if that is not negative (R150, R152). -/
theorem exec_jt_taken (h1 : Readable s 1 m1) (hc : operandValue s 1 m1 ≠ 0) (h2 : Readable s 2 m2)
    (ht : 0 ≤ operandValue s 2 m2) :
    exec (.jt m1 m2) s = .next
      (({ s with memLen := lenAfterRead s 2 m2 (lenAfterRead s 1 m1 s.memLen) } : State).goOn
        (operandValue s 2 m2).toNat) := by
  have hf : execFault s (.jt m1 m2) = none := by
    rw [execFault, (readable_iff s 1 m1).mp h1, Option.none_or, if_pos hc, jumpFault, (readable_iff s 2 m2).mp h2,
      Option.none_or, if_neg (not_lt.mpr ht)]
  have taken : isTrue (operandValue s 1 m1) = true := decide_eq_true hc
  rw [(exec_answers (.jt m1 m2) s).1 hf, State.afterInstr, State.afterJump, if_pos taken]

/-- The negation of −2^(W−1) is no cell value (R7). -/
theorem not_inCell_neg_cellMin (w : Nat) : ¬ InCell w (-cellMin w) := by
  rintro ⟨-, h⟩
  simp only [cellMin, cellMax] at h
  omega

/-! ## The five -/

/-- Settles O56: the constant operands 0, 1 and −1 are put into what JT, ADD and MUL do. -/
theorem pseudoInstructionEffects : Obligations.PseudoInstructionEffects := by
  intro s ms md
  refine ⟨fun hp1 hc => ?nop, fun hp1 hc ht hn => ?jmp, fun hs hp2 hz hd hv => ?mov,
    fun hp1 hp2 hy hz hd => ?clr, fun hs hp2 hz hd => ⟨fun hv => ?neg, fun hv => ?overflow⟩⟩
  case nop => exact exec_jt_not_taken (m1 := .immediate) hp1 hc
  case jmp =>
    have cond : operandValue s 1 .immediate ≠ 0 := by
      rw [operandValue_immediate, hc]
      decide
    exact ⟨_, exec_jt_taken hp1 cond ht hn⟩
  case mov =>
    have sum : operandValue s 1 ms + operandValue s 2 .immediate = operandValue s 1 ms := by
      rw [operandValue_immediate, hz, add_zero]
    exact exec_add_stores (tripleFault_eq_none_iff.mpr ⟨hs, hp2, hd⟩) sum hv
  case clr =>
    have sum : operandValue s 1 .immediate + operandValue s 2 .immediate = 0 := by
      rw [operandValue_immediate, operandValue_immediate, hy, hz, add_zero]
    exact exec_add_stores (tripleFault_eq_none_iff.mpr ⟨hp1, hp2, hd⟩) sum (zero_inCell _)
  case' neg | overflow =>
    have resolves : tripleFault s ms .immediate md = none := tripleFault_eq_none_iff.mpr ⟨hs, hp2, hd⟩
    have product : operandValue s 1 ms * operandValue s 2 .immediate = -operandValue s 1 ms := by
      rw [operandValue_immediate, hz, mul_neg_one]
  case neg => exact exec_mul_stores resolves product hv
  case overflow => exact exec_mul_overflows resolves product (hv ▸ not_inCell_neg_cellMin _)

end Sys2Proof.Machine
end

section
/-! PROOFS. The assembler (R83 to R85): the cells of a statement, and where they stand in the program. -/

namespace Sys2Proof.Machine

variable {env : List (Label × Nat)} {t : AsmStmt} {i : Instr} {os : List AsmOperand} {cs : List Int}

/-! ## The cells of one statement -/

theorem AsmOperand.cell_lit (env : List (Label × Nat)) (n : Int) : (AsmOperand.lit n).cell env = some n := rfl

theorem operandCells_cons {o : AsmOperand} {c : Int} (hc : o.cell env = some c) (hs : operandCells env os = some cs) :
    operandCells env (o :: os) = some (c :: cs) := by
  simp [operandCells, hc, hs]

/-- An operand takes one cell. -/
theorem operandCells_length (h : operandCells env os = some cs) : cs.length = os.length := by
  induction os generalizing cs with
  | nil => cases h; rfl
  | cons o os ih =>
    simp only [operandCells, Option.bind_eq_some_iff, Option.map_eq_some_iff] at h
    obtain ⟨c, -, ds, hs, rfl⟩ := h
    simp [ih hs]

/-- A statement is DATA, or stands for one instruction with as many operands as that has parameters (R84). -/
theorem AsmStmt.data_or_instr (t : AsmStmt) :
    (∃ vs, t = .data vs) ∨ ∃ i os, t.instr = some (i, os) ∧ os.length = i.paramCount := by
  cases t with
  | data vs => exact .inl ⟨vs, rfl⟩
  | _ => exact .inr ⟨_, _, rfl, rfl⟩

theorem AsmStmt.size_of_instr (h : t.instr = some (i, os)) : t.size = i.length := by
  cases t <;> cases h <;> rfl

theorem AsmStmt.cells_of_instr (h : t.instr = some (i, os)) :
    t.cells env = (operandCells env os).map (encodeCells i) := by
  cases t <;> cases h <;> rfl

/-- A statement takes as many cells as its size says (R84). -/
theorem AsmStmt.cells_length {c : List Int} (h : t.cells env = some c) : c.length = t.size := by
  rcases t.data_or_instr with ⟨vs, rfl⟩ | ⟨i, os, hi, hn⟩
  · cases h; rfl
  · rw [AsmStmt.cells_of_instr hi, Option.map_eq_some_iff] at h
    obtain ⟨cs, hcs, rfl⟩ := h
    rw [AsmStmt.size_of_instr hi, encodeCells, List.length_cons, operandCells_length hcs, hn, Instr.length]

/-! ## The pseudo-instructions -/

/-- The cells of a statement that stands for an instruction with two operands. -/
theorem AsmStmt.cells_two {o₁ o₂ : AsmOperand} {v c₁ c₂ : Int} (hi : t.instr = some (i, [o₁, o₂])) (hv : encode i = v)
    (h₁ : o₁.cell env = some c₁) (h₂ : o₂.cell env = some c₂) : t.cells env = some [v, c₁, c₂] := by
  subst hv
  rw [AsmStmt.cells_of_instr hi, operandCells_cons h₁ (operandCells_cons h₂ rfl)]
  rfl

/-- The cells of a statement that stands for an instruction with three operands. -/
theorem AsmStmt.cells_three {o₁ o₂ o₃ : AsmOperand} {v c₁ c₂ c₃ : Int} (hi : t.instr = some (i, [o₁, o₂, o₃]))
    (hv : encode i = v) (h₁ : o₁.cell env = some c₁) (h₂ : o₂.cell env = some c₂) (h₃ : o₃.cell env = some c₃) :
    t.cells env = some [v, c₁, c₂, c₃] := by
  subst hv
  rw [AsmStmt.cells_of_instr hi, operandCells_cons h₁ (operandCells_cons h₂ (operandCells_cons h₃ rfl))]
  rfl

/-- The opcode cell of an instruction with two parameters, digit by digit (R82). -/
theorem encode_of_two_modes {m1 m2 : Mode} (h : i.modes = [m1, m2]) :
    encode i = i.opcode + 100 * (m1.toDigit : Int) + 1000 * (m2.toDigit : Int) := by
  rw [encode, h, modesNumber, modesNumber, modesNumber]
  push_cast
  ring

/-- The opcode cell of an instruction with three parameters, digit by digit (R82). -/
theorem encode_of_three_modes {m1 m2 m3 : Mode} (h : i.modes = [m1, m2, m3]) :
    encode i =
      i.opcode + 100 * (m1.toDigit : Int) + 1000 * (m2.toDigit : Int) + 10000 * (m3.toDigit : Int) := by
  rw [encode, h, modesNumber, modesNumber, modesNumber, modesNumber]
  push_cast
  ring

/-- Settles O55: each is the one instruction R85 gives it, whose opcode cell is read off its modes. -/
theorem pseudoInstructionsEncode : Obligations.PseudoInstructionsEncode := by
  intro env a d p q ha hd
  have lit := AsmOperand.cell_lit env
  refine ⟨AsmStmt.cells_two rfl ?jmp (lit 1) ha, AsmStmt.cells_three rfl ?mov ha (lit 0) hd,
    AsmStmt.cells_three rfl ?clr (lit 0) (lit 0) hd, AsmStmt.cells_three rfl ?neg ha (lit (-1)) hd, rfl⟩
  case jmp =>
    rw [encode_of_two_modes rfl]
    simp only [Instr.opcode, Mode.toDigit]
    omega
  case mov | clr | neg =>
    rw [encode_of_three_modes rfl]
    simp only [Instr.opcode, Mode.toDigit]
    omega

/-! ## The cells of a source -/

/-- How many cells a line takes: none if it has no statement (log 14). -/
def AsmLine.size (l : AsmLine) : Nat :=
  match l.stmt with
  | some t => t.size
  | none => 0

/-- The cells of a source are the first line's, then the others'. -/
theorem linesCells_cons {l : AsmLine} {ls : List AsmLine} (h : linesCells env (l :: ls) = some cs) :
    ∃ c ds, cs = c ++ ds ∧ c.length = l.size ∧ (∀ t, l.stmt = some t → t.cells env = some c) ∧
      linesCells env ls = some ds := by
  simp only [linesCells, Option.bind_eq_some_iff, Option.map_eq_some_iff] at h
  obtain ⟨c, hc, ds, hs, rfl⟩ := h
  refine ⟨c, ds, rfl, ?_, fun t ht => by simpa only [ht] using hc, hs⟩
  rw [AsmLine.size]
  cases ht : l.stmt with
  | none => simp only [ht] at hc; cases hc; rfl
  | some t => simp only [ht] at hc; exact AsmStmt.cells_length hc

/-- The cells of the lines before a line stand before its own and those of the lines after it. -/
theorem linesCells_append {pre ls : List AsmLine} (h : linesCells env (pre ++ ls) = some cs) :
    ∃ before ds, cs = before ++ ds ∧ before.length = (pre.map AsmLine.size).sum ∧ linesCells env ls = some ds := by
  induction pre generalizing cs with
  | nil => exact ⟨[], cs, rfl, rfl, h⟩
  | cons l pre ih =>
    obtain ⟨c, es, rfl, hc, -, hs⟩ := linesCells_cons h
    obtain ⟨before, ds, rfl, hb, hd⟩ := ih hs
    exact ⟨c ++ before, ds, (List.append_assoc ..).symm, by simp [hc, hb], hd⟩

theorem linesCells_of_assemble {ls : List AsmLine} (h : assemble ls = some cs) :
    linesCells (symbols 0 ls) ls = some cs := by
  rw [assemble] at h
  split_ifs at h
  exact h

/-- Settles O57: the program is the cells of the lines before the statement, the statement's, and the others'. -/
theorem assembledStatementsAreConsecutive : Obligations.AssembledStatementsAreConsecutive := by
  intro pre post l t cells h
  obtain ⟨before, ds, rfl, hb, hd⟩ := linesCells_append (linesCells_of_assemble h)
  obtain ⟨c, after, rfl, hc, ht, -⟩ := linesCells_cons hd
  exact ⟨c, ht t rfl, hc, before, after, (List.append_assoc ..).symm, hb⟩

end Sys2Proof.Machine
end

section
/-! PROOFS. A step of a live core is its current instruction's (R106, R107), and every step answers a next state. -/

namespace Sys2Proof.Machine

variable {s t : State} {i : Instr}

/-- A live core runs its current instruction, in the state whose `mem_len` the fetch has grown (R106). -/
theorem step_of_current (hl : s.live) (hc : s.current = some i) : step s = exec i (s.grow s.pc) := by
  obtain ⟨hf, hs⟩ := hl
  rw [step, if_pos hf, if_neg hs, (fetch_spec s).1 i hc, Partial.andThen_value]

/-- A live core whose fetch faults enters that fault (R107). -/
theorem step_of_no_current (hl : s.live) (hc : s.current = none) :
    ∃ c x n, step s = .next (({ s with memLen := n } : State).raise c 0 x) := by
  obtain ⟨hf, hs⟩ := hl
  obtain ⟨c, x, n, -, -, he⟩ := (fetch_spec s).2 hc
  exact ⟨c, x, n, by rw [step, if_pos hf, if_neg hs, he, Partial.andThen_fault]⟩

/-- A faulted or Halted core stays as it is (R172, R221). -/
theorem step_of_not_live (hl : ¬ s.live) : step s = .next s := by
  by_cases hf : s.faultCause = .none
  · have hs : s.status = .halted := not_not.mp fun hs => hl ⟨hf, hs⟩
    rw [step, if_pos hf, if_pos hs]
  · rw [step, if_neg hf]

/-- Settles O9: an opcode cell that is reached and decodes is the current instruction. -/
theorem stepRunsDecodedInstruction : Obligations.StepRunsDecodedInstruction :=
  fun _ _ hl hp hd => step_of_current hl (current_eq_some.mpr ⟨hp, hd⟩)

/-- What answers with a fault's entry or a state answers a next state (log 4). -/
theorem Answers.exists_next {n : Nat} {f : Option FaultInfo} {r : StepResult} (h : Answers s n f r t) :
    ∃ u, r = .next u := by
  obtain ⟨hnone, hsome⟩ := h
  cases f with
  | none => exact ⟨t, hnone rfl⟩
  | some f =>
    obtain ⟨c, k, x⟩ := f
    obtain ⟨l, -, he⟩ := hsome c k x rfl
    exact ⟨_, he⟩

theorem exec_exists_next (i : Instr) (s : State) : ∃ t, exec i s = .next t := (exec_answers i s).exists_next

/-- Settles O10: a step does nothing, enters the fetch's fault, or is its current instruction's. -/
theorem everyStepAnswersNext : Obligations.EveryStepAnswersNext := by
  refine ⟨exec_exists_next, fun s => ?_⟩
  by_cases hl : s.live
  · cases hc : s.current with
    | none =>
      obtain ⟨c, x, n, he⟩ := step_of_no_current hl hc
      exact ⟨_, he⟩
    | some i =>
      rw [step_of_current hl hc]
      exact exec_exists_next i (s.grow s.pc)
  · exact ⟨s, step_of_not_live hl⟩

end Sys2Proof.Machine
end

section
/-! PROOFS. The status a live step leaves (R109): Running, but for a pausing IN and HALT. -/

namespace Sys2Proof.Machine

/-- The status in `t`: AwaitingInput exactly if `paused`, Halted exactly if `stopped`, and never Ready (R109). -/
def StatusTells (t : State) (paused stopped : Prop) : Prop :=
  t.status ≠ .ready ∧ (t.status = .awaitingInput ↔ paused) ∧ (t.status = .halted ↔ stopped)

variable {t : State} {paused stopped : Prop}

theorem StatusTells.running (ht : t.status = .running) (hp : ¬ paused) (hs : ¬ stopped) :
    StatusTells t paused stopped := by
  simp [StatusTells, ht, hp, hs]

theorem afterJump_status (s : State) (taken : Bool) (m2 : Mode) (n : Nat) :
    (s.afterJump taken m2 n).status = .running := by
  cases taken <;> rfl

/-- The status an instruction with no fault to raise leaves. -/
theorem afterInstr_status (s : State) (i : Instr) :
    StatusTells (s.afterInstr i) (∃ m, i = .inp m ∧ s.inq = []) (i = .halt) := by
  cases i with
  | inp m =>
    cases hq : s.inq with
    | nil => simp [StatusTells, State.afterInstr, hq]
    | cons x rest => exact .running (by rw [State.afterInstr, hq]; rfl) nofun nofun
  | halt => simp [StatusTells, State.afterInstr]
  | jt m1 m2 => exact .running (afterJump_status s _ m2 _) nofun nofun
  | jf m1 m2 => exact .running (afterJump_status s _ m2 _) nofun nofun
  | _ => exact .running rfl nofun nofun

/-- Settles O14: HALT, and IN with a writable destination, have no fault to raise, so a step that enters a fault, which
sets Running, ran neither; any other step leaves the status of its instruction. -/
theorem statusAfterLiveStep : Obligations.StatusAfterLiveStep := by
  intro s t hl h
  rcases step_cases h with ⟨hnl, -⟩ | ⟨-, c, k, x, l, hf, -, rfl⟩ | ⟨-, i, hc, hf, rfl⟩
  · exact absurd hl hnl
  · refine StatusTells.running rfl ?_ fun hc => ?_
    · rintro ⟨m, hc, hw, -⟩
      rw [stepFault_of_current hc, execFault, (writable_iff s 1 m).mp hw] at hf
      cases hf
    · rw [stepFault_of_current hc] at hf
      cases hf
  · have pauses : (∃ m, s.current = some (.inp m) ∧ Writable s 1 m ∧ s.inq = []) ↔ ∃ m, i = .inp m ∧ s.inq = [] := by
      rw [hc]
      constructor
      · rintro ⟨m, ⟨⟩, -, hq⟩
        exact ⟨m, rfl, hq⟩
      · rintro ⟨m, rfl, hq⟩
        exact ⟨m, rfl, (writable_iff s 1 m).mpr hf, hq⟩
    rw [pauses, hc, Option.some_inj]
    exact afterInstr_status (s.grow s.pc) i

end Sys2Proof.Machine
end

section
/-! PROOFS. An instruction that has a fault to raise raises it (R111, R218), and an Immediate destination is one. -/

namespace Sys2Proof.Machine

variable {s : State} {m1 m2 : Mode}

theorem raisesItsFault (s : State) (i : Instr) : RaisesItsFault s i := fun c k x hf => by
  obtain ⟨n, grown, he⟩ := (exec_answers i s).2 c k x hf
  exact ⟨n, grown.1, he⟩

/-- An Immediate destination after readable operands is InvalidMode(3, 1) (R101, R212). -/
theorem tripleFault_immediate (h1 : Readable s 1 m1) (h2 : Readable s 2 m2) :
    tripleFault s m1 m2 .immediate = some (.invalidMode, 3, 1) := by
  rw [tripleFault, (readable_iff s 1 m1).mp h1, (readable_iff s 2 m2).mp h2]
  rfl

/-- Settles O29: that fault comes before any check of the result, and IN resolves its destination before it looks at
the queue. -/
theorem immediateDestinationFaults : Obligations.ImmediateDestinationFaults := by
  intro s m1 m2
  refine ⟨fun h1 h2 i hi => ?_, rfl⟩
  have invalid := tripleFault_immediate h1 h2
  have first : execFault s i = some (.invalidMode, 3, 1) := by
    simp only [List.mem_cons, List.not_mem_nil, or_false] at hi
    rcases hi with rfl | rfl | rfl | rfl <;> simp only [execFault, invalid, Option.some_or]
  exact raisesItsFault s i _ _ _ first

end Sys2Proof.Machine
end

section
/-! PROOFS. ADD and MUL (R130, R131): the exact result is stored at the destination, or the first fault is raised. -/

namespace Sys2Proof.Machine

/-- Settles O18: three parameters that resolve leave the sum's range as the only check. -/
theorem addStoresExactSum : Obligations.AddStoresExactSum := by
  intro s m1 m2 m3
  refine ⟨fun h1 h2 h3 hc => ?_, raisesItsFault s _⟩
  have resolves : tripleFault s m1 m2 m3 = none := tripleFault_eq_none_iff.mpr ⟨h1, h2, h3⟩
  exact exec_add_stores resolves rfl hc

/-- Settles O19: three parameters that resolve leave the product's range as the only check. -/
theorem mulStoresExactProduct : Obligations.MulStoresExactProduct := by
  intro s m1 m2 m3
  refine ⟨fun h1 h2 h3 hc => ?_, raisesItsFault s _⟩
  have resolves : tripleFault s m1 m2 m3 = none := tripleFault_eq_none_iff.mpr ⟨h1, h2, h3⟩
  exact exec_mul_stores resolves rfl hc

end Sys2Proof.Machine
end

section
/-! PROOFS. IN and OUT (R140, R141): a value is taken or appended, IN pauses on an empty queue, or the first fault is
raised. -/

namespace Sys2Proof.Machine

/-- Settles O22: the destination is IN's only fault, and what IN leaves otherwise is said by the queue's front. -/
theorem inTakesFrontOrPauses : Obligations.InTakesFrontOrPauses := by
  intro s m1
  have completes : Writable s 1 m1 → exec (.inp m1) s = .next (s.afterInstr (.inp m1)) :=
    fun hw => (exec_answers (.inp m1) s).1 ((writable_iff s 1 m1).mp hw)
  refine ⟨fun hw x rest hq => ?takes, fun hw hq => ?pauses, raisesItsFault s _⟩
  case takes | pauses =>
    rw [completes hw, State.afterInstr, hq]
    rfl

/-- Settles O23: an operand that resolves leaves the room in the log as the only check. -/
theorem outAppendsOperand : Obligations.OutAppendsOperand := by
  intro s m1
  refine ⟨fun hr hroom => ?_, raisesItsFault s _⟩
  have noFault : execFault s (.out m1) = none := by
    rw [execFault, (readable_iff s 1 m1).mp hr, Option.none_or, if_pos hroom]
  exact (exec_answers (.out m1) s).1 noFault

end Sys2Proof.Machine
end

section
/-! PROOFS. The output log conserves values (R143): a step appends what `stepEmits` says, and over a sequence of
transactions what was drained and what is left are what was there and what was appended. -/

namespace Sys2Proof.Machine

variable {s t : State} {i : Instr}

/-! ## What a step appends -/

theorem stepEmits_of_not_live (hl : ¬ s.live) : stepEmits s = [] := if_neg hl

/-- A step that enters a fault appends nothing (R218). -/
theorem stepEmits_of_fault {f : FaultInfo} (hf : stepFault s = some f) : stepEmits s = [] := by
  rw [stepEmits]
  split_ifs
  · split
    · next m1 hc =>
      rw [stepFault_of_current hc] at hf
      rw [if_neg (by simp [hf])]
    · rfl
  · rfl

/-- An instruction other than OUT appends nothing (R30). -/
theorem stepEmits_of_not_out (hc : s.current = some i) (hi : ∀ m, i ≠ .out m) : stepEmits s = [] := by
  rw [stepEmits]
  split_ifs
  · split
    · next m1 hout => exact absurd (Option.some.inj (hc.symm.trans hout)) (hi m1)
    · rfl
  · rfl

/-- An OUT that completes appends its operand (R141). -/
theorem stepEmits_of_out {m1 : Mode} (hl : s.live) (hc : s.current = some (.out m1))
    (hf : execFault s (.out m1) = none) : stepEmits s = [operandValue s 1 m1] := by
  rw [stepEmits, if_pos hl, hc]
  exact if_pos hf

theorem step_outq (h : step s = .next t) : t.outq = s.outq ++ stepEmits s := by
  rcases step_cases h with ⟨hl, rfl⟩ | ⟨-, c, k, x, l, hf, -, rfl⟩ | ⟨hl, i, hc, hf, rfl⟩
  · rw [stepEmits_of_not_live hl, List.append_nil]
  · rw [stepEmits_of_fault hf, List.append_nil]
    rfl
  · by_cases hi : ∃ m, i = .out m
    · obtain ⟨m1, rfl⟩ := hi
      rw [stepEmits_of_out hl hc hf]
      rfl
    · have notOut : ∀ m, i ≠ .out m := not_exists.mp hi
      have frame := afterInstr_frame ((execFault_grow s s.pc i).trans hf)
      rw [stepEmits_of_not_out hc notOut, List.append_nil]
      exact frame.outq.resolve_right fun ⟨m, _, hm, _⟩ => notOut m hm

theorem stepState_outq (s : State) : (stepState s).outq = s.outq ++ stepEmits s := by
  obtain ⟨t, h⟩ := everyStepAnswersNext.2 s
  rw [stepState, h]
  exact step_outq h

theorem run_outq (fuel : Nat) (s : State) : (run fuel s).2.outq = s.outq ++ runEmits fuel s := by
  induction fuel generalizing s with
  | zero => exact (List.append_nil _).symm
  | succ fuel ih =>
    rw [run, runEmits]
    split_ifs
    · rw [ih, stepState_outq, List.append_assoc]
    · rw [stepState_outq, List.append_nil]

/-! ## What a transaction drains -/

theorem drained_cons (r : Response) (rs : List Response) : drained (r :: rs) = drained [r] ++ drained rs := by
  cases r <;> simp [drained]

theorem drained_stepResponse (s : State) : drained [stepResponse s] = [] := by
  rw [stepResponse]
  split_ifs <;> rfl

theorem drained_run (fuel : Nat) (s : State) : drained [(run fuel s).1] = [] := by
  induction fuel generalizing s with
  | zero => rfl
  | succ fuel ih =>
    rw [run]
    split_ifs
    · exact ih _
    · exact drained_stepResponse _

theorem drained_provideInput (x : Int) (s : State) : drained [(provideInput x s).1] = [] := by
  rw [provideInput]
  split_ifs <;> rfl

theorem drained_peek (i : Int) (s : State) : drained [(peek i s).1] = [] := by
  rw [peek]
  split <;> rfl

theorem drained_poke (i x : Int) (s : State) : drained [(poke i x s).1] = [] := by
  rw [poke]
  split_ifs
  · split <;> rfl
  · rfl

/-! ## Sequences of transactions -/

theorem conserves_of_undrained {r : Response} {out : List Int} (hr : drained [r] = []) (ht : t.outq = out) :
    drained [r] ++ t.outq = out := by
  rw [hr, ht, List.nil_append]

/-- What one transaction drained and leaves in the log are what was there and what it appended (R143, R185). -/
theorem transact_conserves_output (q : Transaction) (s : State) (hload : q.notLoad = true) :
    drained [(transact q s).1] ++ (transact q s).2.outq = s.outq ++ emits q s := by
  have unchanged : s.outq ++ [] = s.outq := List.append_nil _
  cases q with
  | load p => cases hload
  | step => exact conserves_of_undrained (drained_stepResponse _) (stepState_outq s)
  | run fuel => exact conserves_of_undrained (drained_run fuel s) (run_outq fuel s)
  | drainOutput => exact List.append_assoc s.outq [] []
  | status => exact unchanged.symm
  | provideInput x =>
    refine conserves_of_undrained (drained_provideInput x s) (Eq.trans ?_ unchanged.symm)
    rcases provideInput_state x s with h | ⟨-, -, h⟩ <;> exact (congrArg State.outq h :)
  | peek i =>
    refine conserves_of_undrained (drained_peek i s) (Eq.trans ?_ unchanged.symm)
    rcases peek_state i s with h | ⟨-, h⟩ <;> exact (congrArg State.outq h :)
  | poke i x =>
    refine conserves_of_undrained (drained_poke i x s) (Eq.trans ?_ unchanged.symm)
    rcases poke_state i x s with h | ⟨-, -, h⟩ <;> exact (congrArg State.outq h :)

/-- Settles O50, by induction on the sequence: each transaction conserves the log's values. -/
theorem outputLogConservesValues : Obligations.OutputLogConservesValues := by
  intro qs s hload
  induction qs generalizing s with
  | nil => exact (List.append_nil _).symm
  | cons q qs ih =>
    obtain ⟨hq, hqs⟩ := List.forall_mem_cons.mp hload
    have rest := ih (transact q s).2 hqs
    have first := transact_conserves_output q s hq
    rw [transactAll, emitsAll, drained_cons, List.append_assoc, rest, ← List.append_assoc, first, List.append_assoc]

end Sys2Proof.Machine
end

section
/-! PROOFS. A step that does not pause does not look behind the values it takes from the input queue (R142, R195). -/

namespace Sys2Proof.Machine

/-- The core with the values `xs` at the back of its input queue. -/
def State.queue (s : State) (xs : List Int) : State := s.setInq (s.inq ++ xs)

/-- A part's answer with `xs` at the back of its state's input queue. -/
def Partial.queue {α : Type} (r : Partial α) (xs : List Int) : Partial α :=
  match r with
  | .value x s => .value x (s.queue xs)
  | .fault c k x s => .fault c k x (s.queue xs)

/-- Where `f` does not pause, it does the same with more values at the back of the input queue. -/
def IgnoresLaterInput (f : State → StepResult) : Prop :=
  ∀ s t xs, f s = .next t → t.status ≠ .awaitingInput → f (s.queue xs) = .next (t.queue xs)

/-- A part of a step that neither reads nor writes the input queue. -/
def LeavesInput {α : Type} (r : State → Partial α) : Prop := ∀ s q, r (s.setInq q) = (r s).setInq q

theorem memWrite_setInq (k : Nat) (a v : Int) : LeavesInput (memWrite k a v) := by
  intro s q
  by_cases h : a < 0
  · simp [memWrite, h, Partial.setInq]
  · cases hc : s.config.memCapacity.admits a.toNat <;> simp [memWrite, h, hc, Partial.setInq]
    rfl

/-- Such a part answers alike with more values at the back: its answer has the queue `s` has, as putting that queue into
`s` changes nothing. -/
theorem LeavesInput.queue {α : Type} {r : State → Partial α} (h : LeavesInput r) (s : State) (xs : List Int) :
    r (s.queue xs) = (r s).queue xs := by
  have same : r s = (r s).setInq s.inq := h s s.inq
  have more : r (s.queue xs) = (r s).setInq (s.inq ++ xs) := h s _
  rw [more]
  cases he : r s with
  | value x u =>
    rw [he] at same
    injection same with _ hu
    rw [Partial.setInq, Partial.queue, State.queue, congrArg State.inq hu, State.setInq_inq]
  | fault c k x u =>
    rw [he] at same
    injection same with _ _ _ hu
    rw [Partial.setInq, Partial.queue, State.queue, congrArg State.inq hu, State.setInq_inq]

namespace IgnoresLaterInput

/-! ## The parts -/

theorem next {g : State → State} (h : ∀ s xs, g (s.queue xs) = (g s).queue xs) :
    IgnoresLaterInput fun s => .next (g s) := by
  rintro s _ xs ⟨⟩ -
  exact congrArg _ (h s xs)

theorem andThen {α : Type} {r : State → Partial α} (hr : LeavesInput r) {f : α → State → StepResult}
    (hf : ∀ x, IgnoresLaterInput (f x)) : IgnoresLaterInput fun s => (r s).andThen f := by
  intro s t xs h ht
  beta_reduce at h ⊢
  rw [hr.queue s xs]
  cases he : r s with
  | value x u =>
    rw [he] at h
    exact hf x u t xs h ht
  | fault c k x u =>
    rw [he] at h
    cases h
    rfl

theorem ite {p : State → Prop} [DecidablePred p] (hp : ∀ s xs, p (s.queue xs) ↔ p s) {f g : State → StepResult}
    (hf : IgnoresLaterInput f) (hg : IgnoresLaterInput g) :
    IgnoresLaterInput fun s => if p s then f s else g s := by
  intro s t xs h ht
  simp only [hp] at h ⊢
  split_ifs at h ⊢
  · exact hf s t xs h ht
  · exact hg s t xs h ht

theorem complete (len : Nat) : IgnoresLaterInput (complete len) := next fun _ _ => rfl

theorem storeAndGoOn (k : Nat) (d v : Int) (len : Nat) : IgnoresLaterInput (storeAndGoOn k d v len) :=
  andThen (memWrite_setInq k d v) fun _ => complete len

theorem read (k : Nat) (m : Mode) {f : Int → State → StepResult} (hf : ∀ x, IgnoresLaterInput (f x)) :
    IgnoresLaterInput fun s => (resolveRead k m s).andThen f :=
  andThen (fun s q => resolveRead_setInq s q k m) hf

theorem write (k : Nat) (m : Mode) {f : Int → State → StepResult} (hf : ∀ d, IgnoresLaterInput (f d)) :
    IgnoresLaterInput fun s => (resolveWrite k m s).andThen f :=
  andThen (fun s q => resolveWrite_setInq s q k m) hf

theorem triple (m1 m2 m3 : Mode) {body : Int → Int → Int → State → StepResult}
    (h : ∀ x y d, IgnoresLaterInput (body x y d)) : IgnoresLaterInput fun s => resolveTriple m1 m2 m3 s body :=
  read 1 m1 fun x => read 2 m2 fun y => write 3 m3 fun d => h x y d

theorem storeResult (r d : Int) : IgnoresLaterInput (storeResult r d) :=
  ite (fun _ _ => Iff.rfl) (storeAndGoOn 3 d r 4) (next fun _ _ => rfl)

theorem takeJump (m2 : Mode) : IgnoresLaterInput (takeJump m2) :=
  read 2 m2 fun _ => ite (fun _ _ => Iff.rfl) (next fun _ _ => rfl) (next fun _ _ => rfl)

/-! ## The instructions -/

/-- IN takes the front value, behind which it does not look; on an empty queue it pauses (R140, R142). -/
theorem execIn (m1 : Mode) : IgnoresLaterInput (execIn m1) := by
  refine write 1 m1 fun d s t xs h ht => ?_
  cases hq : s.inq with
  | nil =>
    rw [hq] at h
    cases h
    exact absurd rfl ht
  | cons x rest =>
    rw [hq] at h
    have front : (s.queue xs).inq = x :: (rest ++ xs) := by rw [State.queue, State.setInq_inq, hq, List.cons_append]
    rw [front]
    exact storeAndGoOn 1 d x 2 (s.setInq rest) t xs h ht

theorem exec (i : Instr) : IgnoresLaterInput (exec i) := by
  cases i with
  | add m1 m2 m3 => exact triple m1 m2 m3 fun x y d => storeResult (x + y) d
  | mul m1 m2 m3 => exact triple m1 m2 m3 fun x y d => storeResult (x * y) d
  | lt m1 m2 m3 => exact triple m1 m2 m3 fun x y d => storeAndGoOn 3 d (lessThan x y) 4
  | eq m1 m2 m3 => exact triple m1 m2 m3 fun x y d => storeAndGoOn 3 d (equalTo x y) 4
  | inp m1 => exact execIn m1
  | out m1 => exact read 1 m1 fun x => ite (fun _ _ => Iff.rfl) (next fun _ _ => rfl) (next fun _ _ => rfl)
  | jt m1 m2 => exact read 1 m1 fun c => ite (fun _ _ => Iff.rfl) (takeJump m2) (complete 3)
  | jf m1 m2 => exact read 1 m1 fun c => ite (fun _ _ => Iff.rfl) (complete 3) (takeJump m2)
  | arb m1 => exact read 1 m1 fun x => ite (fun _ _ => Iff.rfl) (next fun _ _ => rfl) (next fun _ _ => rfl)
  | halt => exact next fun _ _ => rfl

end IgnoresLaterInput

/-- A live core fetches and executes (R106). -/
theorem step_of_live {s : State} (hl : s.live) : step s = (fetch s).andThen exec := by
  obtain ⟨hf, hs⟩ := hl
  rw [step, if_pos hf, if_neg hs]

/-- Settles O51: the fetch leaves the queue alone and no instruction looks at its back; a core that is not live does
nothing, whatever its queue. -/
theorem stepIgnoresLaterInput : Obligations.StepIgnoresLaterInput := by
  intro s t xs h hpause
  by_cases hl : s.live
  · rw [step_of_live hl] at h
    have queued : (s.queue xs).live := hl
    exact (step_of_live queued).trans
      (IgnoresLaterInput.andThen fetch_setInq IgnoresLaterInput.exec s t xs h (hpause hl))
  · cases (step_of_not_live hl).symm.trans h
    have queued : ¬ (s.queue xs).live := hl
    exact step_of_not_live queued

end Sys2Proof.Machine
end

section
/-! PROOFS. JT and JF (R150 to R152): a readable condition leaves the choice between going on and the jump, and the
target is looked at by a jump that is taken only. -/

namespace Sys2Proof.Machine

variable {s : State} {k : Nat} {m m1 m2 : Mode}

/-! ## The parts of a jump -/

/-- What follows a readable parameter goes on with its value, and with `mem_len` grown by the accesses (R100). -/
theorem resolveRead_andThen (h : Readable s k m) (n : Nat) (f : Int → State → StepResult) :
    (resolveRead k m { s with memLen := n }).andThen f =
      f (operandValue s k m) { s with memLen := lenAfterRead s k m n } :=
  (andThen_spec s (resolveRead_spec s k m n) f).1 ((readable_iff s k m).mp h)

theorem takeJump_of_nonneg (h : Readable s 2 m2) (ht : 0 ≤ operandValue s 2 m2) (n : Nat) :
    takeJump m2 { s with memLen := n } =
      .next (({ s with memLen := lenAfterRead s 2 m2 n } : State).goOn (operandValue s 2 m2).toNat) := by
  rw [takeJump, resolveRead_andThen h, if_neg (not_lt.mpr ht)]

/-- A taken jump to a negative target faults at the jump (R152). -/
theorem takeJump_of_neg (h : Readable s 2 m2) (ht : operandValue s 2 m2 < 0) (n : Nat) :
    takeJump m2 { s with memLen := n } =
      .next (({ s with memLen := lenAfterRead s 2 m2 n } : State).raise .negativeAddress 2 (operandValue s 2 m2)) := by
  rw [takeJump, resolveRead_andThen h, if_pos ht]

/-! ## The condition -/

theorem isTrue_eq_true {c : Int} (h : c ≠ 0) : isTrue c = true := decide_eq_true h

theorem exec_jt_eq_takeJump (h : Readable s 1 m1) (hc : operandValue s 1 m1 ≠ 0) :
    exec (.jt m1 m2) s = takeJump m2 { s with memLen := lenAfterRead s 1 m1 s.memLen } :=
  (resolveRead_andThen h s.memLen _).trans (if_pos (isTrue_eq_true hc))

theorem exec_jf_eq_takeJump (h : Readable s 1 m1) (hc : operandValue s 1 m1 = 0) :
    exec (.jf m1 m2) s = takeJump m2 { s with memLen := lenAfterRead s 1 m1 s.memLen } :=
  (resolveRead_andThen h s.memLen _).trans (by rw [hc]; rfl)

theorem exec_jf_not_taken (h : Readable s 1 m1) (hc : operandValue s 1 m1 ≠ 0) :
    exec (.jf m1 m2) s = complete 3 { s with memLen := lenAfterRead s 1 m1 s.memLen } :=
  (resolveRead_andThen h s.memLen _).trans (if_pos (isTrue_eq_true hc))

/-! ## The obligations -/

/-- Settles O24: a condition of 0 goes on, another one takes the jump. -/
theorem jtJumpsOnNonZero : Obligations.JtJumpsOnNonZero := fun s _ _ =>
  ⟨exec_jt_not_taken, exec_jt_taken, raisesItsFault s _⟩

/-- Settles O25: a condition of 0 takes the jump, another one goes on. -/
theorem jfJumpsOnZero : Obligations.JfJumpsOnZero := by
  intro s m1 m2
  refine ⟨exec_jf_not_taken, fun h1 hc h2 ht => ?taken, raisesItsFault s _⟩
  case taken => exact (exec_jf_eq_takeJump h1 hc).trans (takeJump_of_nonneg h2 ht _)

/-- Settles O31: either jump, once taken, is `takeJump`, which faults on a negative target. -/
theorem negativeJumpTargetFaults : Obligations.NegativeJumpTargetFaults := by
  intro s m1 m2 h1 h2 ht i hi
  have taken : exec i s = takeJump m2 { s with memLen := lenAfterRead s 1 m1 s.memLen } := by
    rcases hi with ⟨rfl, hc⟩ | ⟨rfl, hc⟩
    · exact exec_jt_eq_takeJump h1 hc
    · exact exec_jf_eq_takeJump h1 hc
  exact taken.trans (takeJump_of_neg h2 ht _)

end Sys2Proof.Machine
end

section
/-! PROOFS. LT and EQ (R160, R161): the truth value is stored at the destination, or the first fault is raised. -/

namespace Sys2Proof.Machine

/-! ## The truth values -/

theorem truth_decide (p : Prop) [Decidable p] : truth (decide p) = if p then 1 else 0 := by
  by_cases h : p
  · rw [decide_eq_true h, if_pos h]; rfl
  · rw [decide_eq_false h, if_neg h]; rfl

theorem lessThan_eq_ite (x y : Int) : lessThan x y = if x < y then 1 else 0 := truth_decide (x < y)

theorem equalTo_eq_ite (x y : Int) : equalTo x y = if x = y then 1 else 0 := truth_decide (x = y)

/-! ## The obligations -/

/-- Settles O20: three parameters that resolve leave LT nothing to check, as its result always fits a cell (R162). -/
theorem ltStoresTruth : Obligations.LtStoresTruth := by
  intro s m1 m2 m3
  refine ⟨fun h1 h2 h3 => ?_, raisesItsFault s _⟩
  have noFault : execFault s (.lt m1 m2 m3) = none := tripleFault_eq_none_iff.mpr ⟨h1, h2, h3⟩
  rw [← lessThan_eq_ite]
  exact (exec_answers (.lt m1 m2 m3) s).1 noFault

/-- Settles O21: three parameters that resolve leave EQ nothing to check, as its result always fits a cell (R162). -/
theorem eqStoresTruth : Obligations.EqStoresTruth := by
  intro s m1 m2 m3
  refine ⟨fun h1 h2 h3 => ?_, raisesItsFault s _⟩
  have noFault : execFault s (.eq m1 m2 m3) = none := tripleFault_eq_none_iff.mpr ⟨h1, h2, h3⟩
  rw [← equalTo_eq_ite]
  exact (exec_answers (.eq m1 m2 m3) s).1 noFault

end Sys2Proof.Machine
end

section
/-! PROOFS. A core that is not live answers STEP and RUN at once and stays as it is; Halted without a fault is one such
core (R172, R221). -/

namespace Sys2Proof.Machine

variable {s : State}

theorem stepState_of_not_live (hl : ¬ s.live) : stepState s = s := by
  rw [stepState, step_of_not_live hl]

/-- RUN stops at a faulted or Halted core (R184). -/
theorem goesOn_of_not_live (hl : ¬ s.live) : s.goesOn = false := by
  rw [State.goesOn, ← Bool.decide_and, decide_eq_false hl, Bool.false_and]

theorem transact_step_of_not_live (hl : ¬ s.live) : transact .step s = (stepResponse s, s) := by
  rw [transact, stepState_of_not_live hl]

theorem transact_run_of_not_live (hl : ¬ s.live) (fuel : Nat) :
    transact (.run (fuel + 1)) s = (stepResponse s, s) := by
  have stops : ¬ s.goesOn = true := Bool.eq_false_iff.mp (goesOn_of_not_live hl)
  rw [transact, run, stepState_of_not_live hl, if_neg stops]

theorem not_live_of_finished (h : s.finished) : ¬ s.live := fun hl => hl.2 h.1

theorem stepResponse_of_finished (h : s.finished) : stepResponse s = .status .halted := by
  obtain ⟨halted, unfaulted⟩ := h
  rw [stepResponse, if_pos unfaulted, halted]

/-- Settles O13: a finished core is not live, and what it responds is its status. -/
theorem haltedCoreStaysAsItIs : Obligations.HaltedCoreStaysAsItIs := by
  intro s h
  have hl := not_live_of_finished h
  rw [← stepResponse_of_finished h]
  exact ⟨step_of_not_live hl, transact_step_of_not_live hl, transact_run_of_not_live hl⟩

end Sys2Proof.Machine
end

section
/-! PROOFS. ARB and HALT (R170, R171): rb takes the exact sum or the first fault is raised; HALT writes status only. -/

namespace Sys2Proof.Machine

/-- Settles O26: an operand that resolves leaves the sum's range as the only check. -/
theorem arbAddsToRelativeBase : Obligations.ArbAddsToRelativeBase := by
  intro s m1
  refine ⟨fun hr hc => ?_, raisesItsFault s _⟩
  have noFault : execFault s (.arb m1) = none :=
    Option.or_eq_none_iff.mpr ⟨(readable_iff s 1 m1).mp hr, overflowFault_eq_none.mpr hc⟩
  exact (exec_answers (.arb m1) s).1 noFault

/-- Settles O27: HALT has no fault to raise, and what it leaves is `stop`. -/
theorem haltSetsHalted : Obligations.HaltSetsHalted := fun s => (exec_answers .halt s).1 rfl

end Sys2Proof.Machine
end

section
/-! PROOFS. What LOAD accepts (R181), that only cell values reach the core (R191), and that every transaction keeps the
machine's invariant. -/

namespace Sys2Proof

/-! ## Limits -/

/-- An index under a limit is room for one entry more (R29, R30). -/
theorem Limit.holds_succ (l : Limit) (n : Nat) : l.holds (n + 1) = l.admits n := by cases l <;> rfl

theorem Limit.holds_zero (l : Limit) : l.holds 0 = true := by cases l <;> rfl

theorem Limit.admits_of_lt {l : Limit} {n a : Nat} (h : l.holds n = true) (ha : a < n) : l.admits a = true := by
  cases l with
  | finite m => exact decide_eq_true (ha.trans_le (of_decide_eq_true h))
  | unbounded => rfl

namespace Machine

variable {s t : State} {c : Config} {p : List Int}

/-! ## LOAD -/

theorem load_accepts (hp : ∀ v ∈ p, InCell c.cellWidth v) (hlen : c.memCapacity.holds p.length = true) :
    load c p = some { State.empty c with mem := Memory.ofProgram 0 p, memLen := p.length } :=
  if_pos ⟨hp, hlen⟩

theorem load_rejects (h : (∃ v ∈ p, ¬ InCell c.cellWidth v) ∨ c.memCapacity.holds p.length = false) :
    load c p = none := by
  refine if_neg fun ⟨cells, fits⟩ => ?_
  rcases h with ⟨v, hv, hn⟩ | hn
  · exact hn (cells v hv)
  · exact Bool.false_ne_true (hn.symm.trans fits)

theorem transact_load_of_some (h : load s.config p = some t) : transact (.load p) s = (.ok, t) := by
  rw [transact, h]

/-- A rejected LOAD changes nothing (log 9). -/
theorem transact_load_of_none (h : load s.config p = none) : transact (.load p) s = (.rejected, s) := by
  rw [transact, h]

/-- Settles O2: LOAD makes a core exactly if both of its checks pass. -/
theorem loadAcceptsExactlyCellPrograms : Obligations.LoadAcceptsExactlyCellPrograms := fun _ _ =>
  ⟨fun hp hlen => ⟨_, load_accepts hp hlen, transact_load_of_some (load_accepts hp hlen)⟩,
    fun h => transact_load_of_none (load_rejects h)⟩

/-! ## Only cell values are carried -/

/-- Settles O42: LOAD, PROVIDE_INPUT and POKE look at what they pass, and the other transactions pass nothing. -/
theorem onlyCellValuesAreCarried : Obligations.OnlyCellValuesAreCarried := by
  intro t s h
  cases t with
  | load p =>
    have bad : ∃ v ∈ p, ¬ InCell s.config.cellWidth v := by simpa only [not_forall, exists_prop] using h
    rw [transact_load_of_none (load_rejects (.inl bad))]
    exact ⟨rfl, rfl⟩
  | provideInput x =>
    rw [transact, provideInput_not_cell h]
    exact ⟨rfl, rfl⟩
  | poke i x =>
    rw [transact, poke_not_cell h]
    exact ⟨rfl, rfl⟩
  | step | run fuel | drainOutput | peek i | status => exact absurd trivial h

/-! ## STEP -/

theorem stepState_of_step (h : step s = .next t) : stepState s = t := by
  rw [stepState, h]

/-- A step always answers the next state (log 4). -/
theorem step_eq_stepState (s : State) : step s = .next (stepState s) := by
  obtain ⟨t, ht⟩ := everyStepAnswersNext.2 s
  rw [stepState_of_step ht, ht]

/-! ## The invariant -/

namespace State.Inv

theorem empty (h : c.legal = true) : (State.empty c).Inv where
  config_legal := h
  mem_wf := ⟨.nil, nofun⟩
  mem_cells := nofun
  mem_legal := nofun
  mem_below := nofun
  len_legal := Limit.holds_zero _
  rb_cell := zero_inCell _
  inq_cells := nofun
  inq_depth := Limit.holds_zero _
  outq_cells := nofun
  outq_depth := Limit.holds_zero _
  latch_clear := fun _ => ⟨rfl, rfl⟩
  latch_status := fun hn => absurd rfl hn
  param_range := Nat.zero_le _

/-- What LOAD leaves: cell values at addresses below the program's length, in a core with everything else at its
default (R24, R240). -/
theorem load (hc : c.legal = true) (hl : load c p = some s) : s.Inv := by
  obtain ⟨⟨cells, fits⟩, hs⟩ := Option.ite_none_right_eq_some.mp hl
  cases hs
  have below : ∀ d ∈ Memory.ofProgram 0 p, d.1 < p.length ∧ d.2 ∈ p := fun d hd => by
    obtain ⟨-, hlt, hin⟩ := Memory.ofProgram_range hd
    exact ⟨by omega, hin⟩
  exact { empty hc with
    mem_wf := Memory.ofProgram_wf p 0
    mem_cells := fun d hd => cells d.2 (below d hd).2
    mem_legal := fun d hd => Limit.admits_of_lt fits (below d hd).1
    mem_below := fun d hd => (below d hd).1
    len_legal := fits }

/-- A value provided to a queue with room for it (R29, R182). -/
theorem provide (h : s.Inv) {x : Int} (hx : InCell s.config.cellWidth x)
    (hd : s.config.inDepth.admits s.inq.length = true) : (s.setInq (s.inq ++ [x])).Inv := by
  refine h.setInq (List.forall_mem_append.mpr ⟨h.inq_cells, List.forall_mem_singleton.mpr hx⟩) ?_
  rw [List.length_append, List.length_singleton, Limit.holds_succ]
  exact hd

theorem stepState (h : s.Inv) : (stepState s).Inv :=
  stepKeepsInvariant s _ h (step_eq_stepState s)

theorem run (h : s.Inv) (fuel : Nat) : (run fuel s).2.Inv := by
  induction fuel generalizing s with
  | zero => exact h
  | succ fuel ih =>
    rw [Machine.run]
    split_ifs
    · exact ih h.stepState
    · exact h.stepState

end State.Inv

/-- Settles O41: each transaction leaves the core alone, makes a new one, or ends in an update that keeps the
invariant. -/
theorem transactionKeepsInvariant : Obligations.TransactionKeepsInvariant := by
  intro t s h
  cases t with
  | load p =>
    cases hl : load s.config p with
    | some u =>
      rw [transact_load_of_some hl]
      exact .load h.config_legal hl
    | none =>
      rw [transact_load_of_none hl]
      exact h
  | provideInput x =>
    rcases provideInput_state x s with hs | ⟨hx, room, hs⟩ <;> rw [transact, hs]
    · exact h
    · exact h.provide hx room
  | step => exact h.stepState
  | run fuel => exact h.run fuel
  | drainOutput => exact h.setOutq nofun (Limit.holds_zero _)
  | peek i =>
    rcases peek_state i s with hs | ⟨legal, hs⟩ <;> rw [transact, hs]
    · exact h
    · exact h.setLen (.access legal.2 _)
  | poke i x =>
    rcases poke_state i x s with hs | ⟨hx, legal, hs⟩ <;> rw [transact, hs]
    · exact h
    · exact h.storeCell legal.2 hx
  | status => exact h

end Machine

end Sys2Proof
end

section
/-! PROOFS. What PROVIDE_INPUT, DRAIN_OUTPUT, PEEK, POKE and STATUS answer (R182, R185 to R188), and that a poked opcode
cell is executed (R64). -/

namespace Sys2Proof.Machine

variable {s : State} {i x : Int}

/-! ## The queues and the status -/

/-- Settles O43: the value is one the interface carries, so only the room in the queue is looked at. -/
theorem provideInputAppends : Obligations.ProvideInputAppends := by
  intro x s hx
  rw [transact, provideInput_cell hx]
  exact ⟨fun room => if_pos room, fun full => if_neg (Bool.eq_false_iff.mp full)⟩

/-- Settles O44: DRAIN_OUTPUT is defined so (R185). -/
theorem drainOutputEmptiesLog : Obligations.DrainOutputEmptiesLog := fun _ => rfl

/-- Settles O47: the codes of R26 and R210 are `Status.code` and `FaultCause.code`, written out. -/
theorem statusReportsWithoutChange : Obligations.StatusReportsWithoutChange := fun _ => rfl

/-! ## Memory -/

theorem peek_negative (h : i < 0) : peek i s = (.negativeAddress, s) := by
  rw [peek, memRead_negative s h]

theorem peek_beyond (h0 : 0 ≤ i) (h : s.config.memCapacity.admits i.toNat = false) :
    peek i s = (.capacityExceeded, s) := by
  rw [peek, memRead_beyond h0 (not_legalAddr_of_beyond h)]

theorem peek_legal (h : s.legalAddr i) : peek i s = (.cell (s.cell i), s.grow i.toNat) := by
  rw [peek, memRead_legal h]

theorem poke_negative (hx : InCell s.config.cellWidth x) (h : i < 0) : poke i x s = (.negativeAddress, s) := by
  rw [poke, if_neg (not_not.mpr hx), memWrite_negative h]

theorem poke_beyond (hx : InCell s.config.cellWidth x) (h0 : 0 ≤ i)
    (h : s.config.memCapacity.admits i.toNat = false) : poke i x s = (.capacityExceeded, s) := by
  rw [poke, if_neg (not_not.mpr hx), memWrite_beyond h0 h]

/-- Settles O45: PEEK and POKE at an address below 0, at one beyond the capacity, and at a legal one. -/
theorem peekAndPokeGoThroughMemory : Obligations.PeekAndPokeGoThroughMemory := fun _ _ _ hx =>
  ⟨fun hneg => ⟨peek_negative hneg, poke_negative hx hneg⟩,
    fun h0 hcap => ⟨peek_beyond h0 hcap, poke_beyond hx h0 hcap⟩,
    fun legal => ⟨peek_legal legal, poke_cell hx legal⟩⟩

/-! ## The poked opcode -/

/-- The cell stored at pc is the opcode cell of the next step (R64, R77). -/
theorem current_storeCell_pc (hwf : s.mem.wf) (hp : s.paramLegal 0) {v : Int} {i : Instr} (hd : decode v = .ok i) :
    (s.storeCell s.pc v).current = some i := by
  have opcode : (s.mem.write s.pc v).read s.pc = v := by rw [Memory.read_write hwf, if_pos rfl]
  exact current_eq_some.mpr ⟨hp, (congrArg decode opcode).trans hd⟩

/-- A store has grown `mem_len` as an access there would (R25). -/
theorem grow_storeCell (s : State) (a : Nat) (v : Int) : (s.storeCell a v).grow a = s.storeCell a v := by
  simp [State.grow, State.storeCell]

/-- Settles O46: the POKE stores the cell, and the step it is fetched in finds `mem_len` grown already. -/
theorem pokedOpcodeIsExecutedNext : Obligations.PokedOpcodeIsExecutedNext := by
  intro s v i hv hwf hl hp hd
  have legal : s.legalAddr (s.pc : Int) := ⟨Int.natCast_nonneg _, hp⟩
  rw [transact, poke_cell hv legal, Int.toNat_natCast]
  have live : (s.storeCell s.pc v).live := hl
  have runs := step_of_current live (current_storeCell_pc hwf hp hd)
  rwa [State.storeCell_pc, grow_storeCell] at runs

end Sys2Proof.Machine
end

section
/-! PROOFS. RUN responds after the first step that leaves the core faulted, Halted or AwaitingInput (R184). -/

namespace Sys2Proof.Machine

variable {s t : State} {r : Response}

/-- The states RUN stops in (R184). -/
theorem goesOn_eq_false_iff :
    s.goesOn = false ↔ s.faulted ∨ s.status = .halted ∨ s.status = .awaitingInput := by
  simp only [State.goesOn, Bool.and_eq_false_iff, decide_eq_false_iff_not, not_not, or_assoc]

/-- Of the steps from `s` on, step `n + 1` is the first to leave a state in which RUN stops. -/
def StopsAfter (s : State) (n : Nat) : Prop :=
  (stepState^[n + 1] s).goesOn = false ∧ ∀ k < n, (stepState^[k + 1] s).goesOn = true

theorem stopsAfter_zero : StopsAfter s 0 ↔ (stepState s).goesOn = false :=
  and_iff_left nofun

theorem stopsAfter_succ {n : Nat} :
    StopsAfter s (n + 1) ↔ (stepState s).goesOn = true ∧ StopsAfter (stepState s) n := by
  rw [StopsAfter, StopsAfter, Nat.forall_lt_succ_left]
  exact and_left_comm

/-- RUN with enough fuel responds after that step, as STEP would. -/
theorem run_of_stopsAfter {n fuel : Nat} (h : StopsAfter s n) (hn : n < fuel) :
    run fuel s = (stepResponse (stepState^[n + 1] s), stepState^[n + 1] s) := by
  induction n generalizing s fuel with
  | zero =>
    obtain ⟨fuel, rfl⟩ := Nat.exists_eq_succ_of_ne_zero hn.ne'
    rw [run, if_neg (Bool.eq_false_iff.mp (stopsAfter_zero.mp h))]
    rfl
  | succ n ih =>
    obtain ⟨fuel, rfl⟩ := Nat.exists_eq_succ_of_ne_zero (Nat.ne_zero_of_lt hn)
    obtain ⟨on, rest⟩ := stopsAfter_succ.mp h
    rw [run, if_pos on, ih rest (Nat.lt_of_succ_lt_succ hn)]
    rfl

/-- A RUN that responds has come to such a step. -/
theorem exists_stopsAfter_of_run {fuel : Nat} (hr : r ≠ .stillRunning) (h : run fuel s = (r, t)) :
    ∃ n < fuel, StopsAfter s n := by
  induction fuel generalizing s with
  | zero => exact absurd (congrArg Prod.fst h).symm hr
  | succ fuel ih =>
    cases on : (stepState s).goesOn with
    | false => exact ⟨0, fuel.succ_pos, stopsAfter_zero.mpr on⟩
    | true =>
      rw [run, if_pos on] at h
      obtain ⟨n, hn, rest⟩ := ih h
      exact ⟨n + 1, Nat.succ_lt_succ hn, stopsAfter_succ.mpr ⟨on, rest⟩⟩

/-- Settles O48: a RUN that responds has come to a first stop, and it responds alike with any fuel beyond it. -/
theorem runStopsAtFirstStop : Obligations.RunStopsAtFirstStop := by
  intro fuel s t r hr
  constructor
  · intro h
    obtain ⟨n, hn, stopped, before⟩ := exists_stopsAfter_of_run hr h
    cases (run_of_stopsAfter ⟨stopped, before⟩ hn).symm.trans h
    exact ⟨n, hn, rfl, rfl, goesOn_eq_false_iff.mp stopped, before⟩
  · rintro ⟨n, hn, rfl, rfl, stopped, before⟩
    exact run_of_stopsAfter ⟨goesOn_eq_false_iff.mpr stopped, before⟩ hn

end Sys2Proof.Machine
end

section
/-! PROOFS. A core paused at IN has done nothing but read the instruction, so that, given input, it goes on as if the
input had been there (R144, R194, R195). -/

namespace Sys2Proof.Machine

variable {s t : State} {m : Mode}

/-- A step with no fault to raise runs the current instruction after the fetch (R106). -/
theorem step_of_no_fault {i : Instr} (hl : s.live) (hc : s.current = some i) (hf : execFault s i = none) :
    step s = .next ((s.grow s.pc).afterInstr i) :=
  (step_of_current hl hc).trans ((exec_answers i _).1 ((execFault_grow s s.pc i).trans hf))

/-- `mem_len` after the fetch of an IN and the resolution of its destination (R101, R107). -/
def State.lenAfterIn (s : State) : Nat := lenAfterWrite s 1 (s.grow s.pc).memLen

/-- What IN leaves when it pauses: only `mem_len` and status change (R140). -/
def State.pausedAtIn (s : State) : State := ({ s with memLen := s.lenAfterIn } : State).pause

theorem afterInstr_no_input (hq : s.inq = []) : (s.grow s.pc).afterInstr (.inp m) = s.pausedAtIn := by
  rw [State.afterInstr]
  split
  · rfl
  · next hc => exact absurd (hq.symm.trans hc) nofun

/-- A live core that a step leaves AwaitingInput is at an IN with no fault to raise (R109, R144). -/
theorem step_paused (hl : s.live) (h : step s = .next t) (hp : t.status = .awaitingInput) :
    ∃ m, s.current = some (.inp m) ∧ execFault s (.inp m) = none ∧ t = s.pausedAtIn := by
  rcases step_cases h with ⟨hn, -⟩ | ⟨-, c, k, x, l, -, -, rfl⟩ | ⟨-, i, hc, hf, rfl⟩
  · exact absurd hl hn
  · cases hp
  · obtain ⟨-, pauses, -⟩ := afterInstr_status (s.grow s.pc) i
    obtain ⟨m, rfl, hq⟩ := pauses.mp hp
    exact ⟨m, hc, hf, afterInstr_no_input hq⟩

/-- The accesses of an IN that is run again reach no further than they did (R25). -/
theorem lenAfterIn_pausedAtIn (s : State) : s.pausedAtIn.lenAfterIn = s.lenAfterIn := by
  simp only [State.lenAfterIn, State.pausedAtIn, State.pause, State.grow, lenAfterWrite]
  omega

/-- IN does not look at the status, so that on the paused core it leaves what it leaves on the core before, whatever
input there is (R140). -/
theorem afterInstr_pausedAtIn (s : State) (m : Mode) :
    (s.pausedAtIn.grow s.pc).afterInstr (.inp m) = (s.grow s.pc).afterInstr (.inp m) := by
  have len : lenAfterWrite (s.pausedAtIn.grow s.pc) 1 (s.pausedAtIn.grow s.pc).memLen =
      lenAfterWrite (s.grow s.pc) 1 (s.grow s.pc).memLen := lenAfterIn_pausedAtIn s
  simp only [State.afterInstr, len]
  cases s.inq <;> rfl

theorem step_pausedAtIn (hl : s.live) (hc : s.current = some (.inp m)) (hf : execFault s (.inp m) = none) :
    step s.pausedAtIn = step s := by
  have resumed : s.pausedAtIn.live := ⟨hl.1, nofun⟩
  exact (step_of_no_fault resumed hc hf).trans
    ((congrArg _ (afterInstr_pausedAtIn s m)).trans (step_of_no_fault hl hc hf).symm)

/-- A core that a step has paused steps with new input as it would have before the pause (R144, R195). -/
theorem stepState_queue_of_paused (hl : s.live) (hp : (stepState s).status = .awaitingInput) (xs : List Int) :
    stepState ((stepState s).queue xs) = stepState (s.queue xs) := by
  obtain ⟨m, hc, hf, paused⟩ := step_paused hl (step_eq_stepState s) hp
  have resumed : step (s.queue xs).pausedAtIn = step (s.queue xs) := step_pausedAtIn hl hc hf
  rw [paused]
  exact stepState_of_step (resumed.trans (step_eq_stepState _))

/-- A step after which RUN goes on does not see values further back in the queue (R142). -/
theorem stepState_queue_of_goesOn (h : (stepState s).goesOn = true) (xs : List Int) :
    stepState (s.queue xs) = (stepState s).queue xs := by
  have unpaused : (stepState s).status ≠ .awaitingInput := by
    simp only [State.goesOn, Bool.and_eq_true, decide_eq_true_eq] at h
    exact h.2
  exact stepState_of_step (stepIgnoresLaterInput s _ xs (step_eq_stepState s) fun _ => unpaused)

/-- RUN begins with a step, so that it does not tell cores apart that step alike. -/
theorem run_congr (h : stepState s = stepState t) (n : Nat) : run (n + 1) s = run (n + 1) t := by
  rw [run, run, h]

/-- STEP responds AwaitingInput in no faulted core. -/
theorem stepResponse_awaitingInput (h : stepResponse s = .status .awaitingInput) :
    s.faultCause = .none ∧ s.status = .awaitingInput := by
  rw [stepResponse] at h
  split_ifs at h with hf
  exact ⟨hf, Response.status.inj h⟩

/-- Settles O52, by induction on the fuel: until the pause each step is the same with the input queued, and the step
after the pause is the one that did not pause with it. -/
theorem suspensionFidelity : Obligations.SuspensionFidelity := by
  intro fuel s t xs n h hn
  obtain ⟨n, rfl⟩ := Nat.exists_eq_succ_of_ne_zero (Nat.ne_zero_of_lt hn)
  induction fuel generalizing s with
  | zero => cases h
  | succ fuel ih =>
    rw [run] at h
    split_ifs at h with on
    · obtain ⟨k, hk⟩ := ih (stepState s) h
      have queued := stepState_queue_of_goesOn on xs
      have queuedOn : ((stepState s).queue xs).goesOn = true := on
      refine ⟨k + 1, Eq.trans ?_ hk⟩
      show run (k + 1) (s.queue xs) = run k ((stepState s).queue xs)
      rw [run, queued, if_pos queuedOn]
    · obtain ⟨hresponse, rfl⟩ := Prod.mk.inj h
      obtain ⟨clear, paused⟩ := stepResponse_awaitingInput hresponse
      have hl : s.live := by
        by_contra hnl
        rw [stepState_of_not_live hnl] at clear paused
        exact hnl ⟨clear, by rw [paused]; nofun⟩
      exact ⟨n + 1, run_congr (stepState_queue_of_paused hl paused xs).symm n⟩

end Sys2Proof.Machine
end

section
/-! PROOFS. Cores share nothing (R192, R227): a transaction reaches one core, and the amplifier chain two. -/

namespace Sys2Proof.Machine

variable {y : System} {a b : Nat} {s t : State}

/-- Settles O53: only the core of the transaction is written. -/
theorem coresShareNothing : Obligations.CoresShareNothing := by
  intro y j k t hne
  rw [System.transact]
  split
  · exact List.getElem?_set_ne hne.symm
  · rfl

/-! ## The amplifier chain -/

/-- Cell values provided to an unbounded queue arrive in order at its back (R182, R192). -/
theorem pushAll_unbounded (hq : s.config.inDepth = .unbounded) {xs : List Int}
    (hxs : ∀ x ∈ xs, InCell s.config.cellWidth x) : pushAll xs s = s.queue xs := by
  induction xs generalizing s with
  | nil => exact congrArg s.setInq (List.append_nil s.inq).symm
  | cons x xs ih =>
    obtain ⟨hx, hrest⟩ := List.forall_mem_cons.mp hxs
    have room : s.config.inDepth.admits s.inq.length = true := by rw [hq]; rfl
    have rest := ih (s := s.setInq (s.inq ++ [x])) hq hrest
    rw [pushAll, provideInput_cell hx, if_pos room, rest]
    exact congrArg s.setInq (List.append_assoc s.inq [x] xs)

/-- One link between two cores: `a` is drained, and `b` runs with what was pushed into it (R192). -/
theorem chain_eq (hne : a ≠ b) (ha : y.cores[a]? = some s) (hb : y.cores[b]? = some t) (fuel : Nat) :
    System.chain a b fuel y =
      (some (run fuel (pushAll s.outq t)).1,
        { cores := (y.cores.set a (drainOutput s).2).set b (run fuel (pushAll s.outq t)).2 }) := by
  have hb' : (y.cores.set a (drainOutput s).2)[b]? = some t := (List.getElem?_set_ne hne).trans hb
  simp only [System.chain, ha, hb']

/-- Settles O54: the pushed values all arrive, and the two cores of the link are the only ones written. -/
theorem chainFeedsOutputsInOrder : Obligations.ChainFeedsOutputsInOrder := by
  intro y a b fuel s t hne ha hb hq hxs
  rw [chain_eq hne ha hb, pushAll_unbounded hq hxs]
  obtain ⟨hla, -⟩ := List.getElem?_eq_some_iff.mp ha
  obtain ⟨hlb, -⟩ := List.getElem?_eq_some_iff.mp hb
  refine ⟨rfl, List.getElem?_set_self (by rwa [List.length_set]), ?_, fun j hja hjb => ?_⟩
  · exact (List.getElem?_set_ne hne.symm).trans (List.getElem?_set_self hla)
  · exact (List.getElem?_set_ne hjb.symm).trans (List.getElem?_set_ne hja.symm)

end Sys2Proof.Machine
end

section
/-! PROOFS. A live step raises the first fault of R220 and no other, and the faults of the fetch, of a result's range
and of a full log, one by one (R211, R214, R216). -/

namespace Sys2Proof.Machine

variable {s : State}

/-- Settles O11: a live step enters the first fault, which writes no more than latch, status and `mem_len`, or runs an
instruction that has none, which leaves the latch. -/
theorem stepRaisesFirstFaultInPriorityOrder : Obligations.StepRaisesFirstFaultInPriorityOrder := by
  intro s t hl h
  rcases step_cases h with ⟨hnl, -⟩ | ⟨-, c, k, x, l, hf, grown, rfl⟩ | ⟨-, i, hc, hf, rfl⟩
  · exact absurd hl hnl
  · rw [hf]
    refine ⟨fun c' k' x' same => ?_, nofun⟩
    cases same
    exact ⟨grown.1, rfl⟩
  · have fetched : execFault (s.grow s.pc) i = none := (execFault_grow s s.pc i).trans hf
    obtain ⟨cause, param, value⟩ := (afterInstr_frame fetched).latch fetched
    rw [stepFault_of_current hc, hf]
    exact ⟨nofun, fun _ => ⟨cause.trans hl.1, param, value⟩⟩

/-! ## The range of a result -/

/-- After parameters that resolve, a result that is no cell value is Overflow (R132, R170). -/
theorem or_overflowFault {f : Option FaultInfo} {r : Int} (hf : f = none) (hr : ¬ InCell s.config.cellWidth r) :
    f.or (overflowFault s r) = some (.overflow, 0, 0) := by
  rw [hf, Option.none_or, overflowFault, if_neg hr]

/-- Settles O28: with the parameters resolved, the range of the result is the only check left, and it fails. -/
theorem outOfRangeResultRaisesOverflow : Obligations.OutOfRangeResultRaisesOverflow := by
  intro s m1 m2 m3 i hi
  have overflows : execFault s i = some (.overflow, 0, 0) := by
    rcases hi with ⟨rfl, h1, h2, h3, hr⟩ | ⟨rfl, h1, h2, h3, hr⟩ | ⟨rfl, h1, hr⟩
    · exact or_overflowFault (tripleFault_eq_none_iff.mpr ⟨h1, h2, h3⟩) hr
    · exact or_overflowFault (tripleFault_eq_none_iff.mpr ⟨h1, h2, h3⟩) hr
    · exact or_overflowFault ((readable_iff s 1 m1).mp h1) hr
  exact raisesItsFault s i _ _ _ overflows

/-! ## The output log -/

/-- Settles O32: once the operand is read, OUT asks the log for room, and there is none. -/
theorem fullOutputLogFaults : Obligations.FullOutputLogFaults := fun s _ hr full =>
  (resolveRead_andThen hr s.memLen _).trans (if_neg (Bool.eq_false_iff.mp full))

/-! ## The opcode cell -/

/-- The fetch of a reachable cell that is no instruction (R72, R211). -/
theorem fetch_of_undecodable {e : DecodeError} (hp : s.paramLegal 0) (hd : decode (s.mem.read s.pc) = .error e) :
    fetch s = .fault .invalidOpcode 0 (s.mem.read s.pc) (s.grow s.pc) := by
  have legal : s.legalAddr (s.pc : Int) := ⟨Int.natCast_nonneg _, hp⟩
  rw [fetch, memRead_legal legal, Partial.bind_value, cell_nat, hd]
  rfl

/-- Settles O33: the step of a live core begins with the fetch, which faults. -/
theorem invalidOpcodeAtFetch : Obligations.InvalidOpcodeAtFetch := by
  intro s e hl hp hd
  rw [step_of_live hl, fetch_of_undecodable hp hd]
  rfl

end Sys2Proof.Machine
end

section
/-! PROOFS. The latch is sticky (R221, R222): a faulted core is not live, and outside a step no transaction but LOAD
writes the latch. -/

namespace Sys2Proof.Machine

variable {s : State}

/-- `t` has the latch of `s` (R27, R28). -/
def SameLatch (s t : State) : Prop :=
  t.faultCause = s.faultCause ∧ t.faultParam = s.faultParam ∧ t.faultValue = s.faultValue

theorem SameLatch.refl (s : State) : SameLatch s s := ⟨rfl, rfl, rfl⟩

theorem provideInput_sameLatch (x : Int) (s : State) : SameLatch s (provideInput x s).2 := by
  rcases provideInput_state x s with h | ⟨-, -, h⟩ <;> rw [h] <;> exact ⟨rfl, rfl, rfl⟩

theorem peek_sameLatch (i : Int) (s : State) : SameLatch s (peek i s).2 := by
  rcases peek_state i s with h | ⟨-, h⟩ <;> rw [h] <;> exact ⟨rfl, rfl, rfl⟩

theorem poke_sameLatch (i x : Int) (s : State) : SameLatch s (poke i x s).2 := by
  rcases poke_state i x s with h | ⟨-, -, h⟩ <;> rw [h] <;> exact ⟨rfl, rfl, rfl⟩

/-- On a core that is not live no transaction but LOAD changes the latch (R222). -/
theorem transact_sameLatch (hl : ¬ s.live) {q : Transaction} (hload : q.notLoad = true) :
    SameLatch s (transact q s).2 := by
  cases q with
  | load p => cases hload
  | provideInput x => exact provideInput_sameLatch x s
  | step =>
    rw [transact_step_of_not_live hl]
    exact .refl s
  | run fuel =>
    cases fuel with
    | zero => exact .refl s
    | succ fuel =>
      rw [transact_run_of_not_live hl]
      exact .refl s
  | drainOutput => exact ⟨rfl, rfl, rfl⟩
  | peek i => exact peek_sameLatch i s
  | poke i x => exact poke_sameLatch i x s
  | status => exact .refl s

theorem not_live_of_faulted (h : s.faulted) : ¬ s.live := fun hl => h hl.1

theorem stepResponse_of_faulted (h : s.faulted) :
    stepResponse s = .fault s.faultCause s.faultParam s.faultValue := if_neg h

/-- Settles O12: a faulted core is not live, and what it responds is its latch. -/
theorem faultLatchIsSticky : Obligations.FaultLatchIsSticky := by
  intro s h
  have hl := not_live_of_faulted h
  rw [← stepResponse_of_faulted h]
  exact ⟨step_of_not_live hl, transact_step_of_not_live hl, transact_run_of_not_live hl,
    fun _ hload => transact_sameLatch hl hload⟩

end Sys2Proof.Machine
end

section
/-! PROOFS. A taken jump to itself (R229): a step only grows `mem_len` and sets status Running, which leaves the core at
that jump. -/

namespace Sys2Proof.Machine

variable {s : State} {m1 m2 : Mode} {i : Instr}

/-- A jump with a readable condition that takes it (R150, R151). -/
structure TakesJump (s : State) (i : Instr) (m1 m2 : Mode) : Prop where
  readable : Readable s 1 m1
  taken : (i = .jt m1 m2 ∧ operandValue s 1 m1 ≠ 0) ∨ (i = .jf m1 m2 ∧ operandValue s 1 m1 = 0)

/-- A live core at a taken jump whose target is that jump (R229). -/
structure AtSelfJump (s : State) (i : Instr) (m1 m2 : Mode) : Prop extends TakesJump s i m1 m2 where
  live : s.live
  current : s.current = some i
  target : Readable s 2 m2
  self : operandValue s 2 m2 = s.pc

/-- Either jump, taken, is `takeJump` after its condition was read. -/
theorem TakesJump.exec_eq (h : TakesJump s i m1 m2) :
    exec i s = takeJump m2 { s with memLen := lenAfterRead s 1 m1 s.memLen } := by
  rcases h.taken with ⟨rfl, hc⟩ | ⟨rfl, hc⟩
  · exact exec_jt_eq_takeJump h.readable hc
  · exact exec_jf_eq_takeJump h.readable hc

/-- A taken jump whose target is `pc` leaves `pc` as it is. -/
theorem takeJump_self (h : Readable s 2 m2) (self : operandValue s 2 m2 = s.pc) (n : Nat) :
    takeJump m2 { s with memLen := n } = .next { s with memLen := lenAfterRead s 2 m2 n, status := .running } := by
  have nonneg : 0 ≤ operandValue s 2 m2 := self ▸ Int.natCast_nonneg s.pc
  rw [takeJump_of_nonneg h nonneg, self, Int.toNat_natCast]
  rfl

namespace AtSelfJump

theorem step_eq (h : AtSelfJump s i m1 m2) : ∃ n, step s = .next { s with memLen := n, status := .running } := by
  have fetched : TakesJump (s.grow s.pc) i m1 m2 := ⟨h.readable, h.taken⟩
  rw [step_of_current h.live h.current, fetched.exec_eq]
  exact ⟨_, takeJump_self h.target h.self _⟩

/-- Neither `mem_len` nor the change to Running is seen by the jump. -/
theorem setLen_running (h : AtSelfJump s i m1 m2) (n : Nat) :
    AtSelfJump { s with memLen := n, status := .running } i m1 m2 :=
  { h with live := ⟨h.live.1, nofun⟩ }

theorem stepState (h : AtSelfJump s i m1 m2) :
    (stepState s).goesOn = true ∧ AtSelfJump (stepState s) i m1 m2 := by
  obtain ⟨n, hstep⟩ := h.step_eq
  rw [stepState_of_step hstep]
  exact ⟨by simp [State.goesOn, h.live.1], h.setLen_running n⟩

theorem run_stillRunning (h : AtSelfJump s i m1 m2) (fuel : Nat) : (run fuel s).1 = .stillRunning := by
  induction fuel generalizing s with
  | zero => rfl
  | succ fuel ih =>
    obtain ⟨on, again⟩ := h.stepState
    rw [run, if_pos on]
    exact ih again

end AtSelfJump

/-- Settles O49, by induction on the fuel: each step goes on, and leaves the core at the same jump. -/
theorem selfJumpNeverResponds : Obligations.SelfJumpNeverResponds :=
  fun _ _ _ _ live current taken readable target self fuel =>
    AtSelfJump.run_stillRunning { readable, taken, live, current, target, self } fuel

end Sys2Proof.Machine
end

section
/-! PROOFS. What LOAD leaves (R240), and that the state after reset meets both invariants. -/

namespace Sys2Proof.Machine

variable {s : State} {c : Config} {p : List Int}

/-- LOAD makes the one core of that program (R181). -/
theorem eq_of_load (h : load c p = some s) :
    s = { State.empty c with mem := Memory.ofProgram 0 p, memLen := p.length } :=
  (Option.some.inj (Option.ite_none_right_eq_some.mp h).2).symm

/-- Settles O1: memory holds the program's cells from address 0 on, and every other piece is that of `State.empty`. -/
theorem loadLeavesResetState : Obligations.LoadLeavesResetState := by
  refine ⟨fun c p s h => ?_, load_accepts nofun rfl⟩
  obtain rfl := eq_of_load h
  have cells : ∀ i, (Memory.ofProgram 0 p).read i = p.getD i 0 := fun i => by
    simpa only [Nat.zero_add] using Memory.read_ofProgram p 0 i
  exact ⟨cells, Memory.ofProgram_wf p 0, rfl, rfl, rfl, rfl, rfl, rfl, rfl, rfl, rfl, rfl⟩

theorem State.Bounded.empty (c : Config) : (State.empty c).Bounded where
  mem_reach := nofun
  pc_bound := Nat.zero_le _
  value_lower := Int.neg_nonpos_of_nonneg (Int.natCast_nonneg _)
  value_upper := Int.natCast_nonneg _

/-- Settles O3: a core with no program meets both invariants, whatever its legal parameters. -/
theorem resetMeetsInvariants : Obligations.ResetMeetsInvariants :=
  ⟨.empty rfl, .empty _⟩

end Sys2Proof.Machine
end
